-- ==== Sys2Proof/Word.lean ====
section
/-! DEFINITION. The value types of the core, all unsigned (spec/00_scope.md R6 and R9). -/

namespace Sys2Proof

/-- An 8-bit value: a memory byte, a `v` register, a timer (R6). -/
abbrev Byte := BitVec 8

/-- A 16-bit value: an instruction word, `program_counter`, `reg_i`, a stack entry (R6). -/
abbrev Word := BitVec 16

/-- A 12-bit instruction field: `addr`, or `value` of `LoadValToI` (R72). -/
abbrev Address := BitVec 12

/-- The index of a `v` register; every 4-bit index names one (R21). -/
abbrev RegIndex := Fin 16

/-- The number of rows of a sprite, 0 to 15 (R6). -/
abbrev RowCount := Fin 16

end Sys2Proof
end

