-- ==== Sys2Proof/Syntax.lean ====
section
/-! DEFINITION. The instruction values the decoder yields: one constructor per row of
spec/opcode_table.json, named after its shape (spec/30_encoding.md R73, R77). -/

namespace Sys2Proof

/-- A decoded instruction. Each shape carries only the operand fields it needs (R73); the row number of
R77's table stands behind each constructor. -/
inductive Instr where
  /-- Row 1, `00E0`. -/
  | clearScreen
  /-- Row 2, `00EE`: the shape `Return`. -/
  | ret
  /-- Row 3, `0nnn` other than rows 1 and 2. -/
  | sysCall (addr : Address)
  /-- Row 4, `1nnn`. -/
  | jump (addr : Address)
  /-- Row 5, `2nnn`. -/
  | call (addr : Address)
  /-- Row 6, `3xkk`. -/
  | skipIfRegValEqual (x : RegIndex) (value : Byte)
  /-- Row 7, `4xkk`. -/
  | skipIfRegValNotEqual (x : RegIndex) (value : Byte)
  /-- Row 8, `5xy0`. -/
  | skipIfRegsEqual (x y : RegIndex)
  /-- Row 9, `6xkk`. -/
  | loadValToReg (x : RegIndex) (value : Byte)
  /-- Row 10, `7xkk`. -/
  | addValToReg (x : RegIndex) (value : Byte)
  /-- Row 11, `8xy0`. -/
  | loadRegToReg (x y : RegIndex)
  /-- Row 12, `8xy1`. -/
  | orRegs (x y : RegIndex)
  /-- Row 13, `8xy2`. -/
  | andRegs (x y : RegIndex)
  /-- Row 14, `8xy3`. -/
  | xorRegs (x y : RegIndex)
  /-- Row 15, `8xy4`. -/
  | addRegToReg (x y : RegIndex)
  /-- Row 16, `8xy5`. -/
  | subRegFromReg (x y : RegIndex)
  /-- Row 17, `8xy6`. -/
  | shiftRight (x y : RegIndex)
  /-- Row 18, `8xy7`. -/
  | subRegFromRegReversed (x y : RegIndex)
  /-- Row 19, `8xyE`. -/
  | shiftLeft (x y : RegIndex)
  /-- Row 20, `9xy0`. -/
  | skipIfRegsNotEqual (x y : RegIndex)
  /-- Row 21, `Annn`: its 12-bit field is the one the source calls `value`. -/
  | loadValToI (value : Address)
  /-- Row 22, `Bnnn`. -/
  | jumpPlusV0 (addr : Address)
  /-- Row 23, `Cxkk`. -/
  | loadRandomAndValToReg (x : RegIndex) (value : Byte)
  /-- Row 24, `Dxyn`. -/
  | drawSprite (x y : RegIndex) (n : RowCount)
  /-- Row 25, `Ex9E`. -/
  | skipIfKeyPressed (x : RegIndex)
  /-- Row 26, `ExA1`. -/
  | skipIfKeyNotPressed (x : RegIndex)
  /-- Row 27, `Fx07`. -/
  | loadDelayTimerToReg (x : RegIndex)
  /-- Row 28, `Fx0A`. -/
  | waitKeyToReg (x : RegIndex)
  /-- Row 29, `Fx15`. -/
  | loadRegToDelayTimer (x : RegIndex)
  /-- Row 30, `Fx18`. -/
  | loadRegToSoundTimer (x : RegIndex)
  /-- Row 31, `Fx1E`. -/
  | addRegToI (x : RegIndex)
  /-- Row 32, `Fx29`. -/
  | loadFontAddrToI (x : RegIndex)
  /-- Row 33, `Fx33`. -/
  | storeBcd (x : RegIndex)
  /-- Row 34, `Fx55`. -/
  | storeRegsToMem (x : RegIndex)
  /-- Row 35, `Fx65`. -/
  | loadRegsFromMem (x : RegIndex)
  /-- Row 36: any word no earlier row matches, carried whole. -/
  | unknown (word : Word)
deriving DecidableEq, Repr

end Sys2Proof
end

