-- ==== Sys2Proof/Decode.lean ====
section
/-! DEFINITION. The Opcode Decoder, "pure function: 16-bit word → structured instruction value"
(spec/30_encoding.md R73 to R81): the decoder by nibbles, R77's ordered table with its first-match reading, the
encoder, and the assembly notation (R82). -/

namespace Sys2Proof

/-! ### Fields (R71, R72) -/

/-- `n1 = w[15:12]`, which "selects the family". -/
def nibble1 (w : Word) : Nat := (w.extractLsb' 12 4).toNat

/-- `n4 = w[3:0]`. -/
def nibble4 (w : Word) : Nat := (w.extractLsb' 0 4).toNat

/-- `x = w[11:8]`, a register index. -/
def fieldX (w : Word) : RegIndex := (w.extractLsb' 8 4).toFin

/-- `y = w[7:4]`, a register index. -/
def fieldY (w : Word) : RegIndex := (w.extractLsb' 4 4).toFin

/-- `n = w[3:0]`, a row count. -/
def fieldN (w : Word) : RowCount := (w.extractLsb' 0 4).toFin

/-- `addr = w[11:0]`. -/
def fieldAddr (w : Word) : Address := w.extractLsb' 0 12

/-- `value = w[7:0]`. -/
def fieldValue (w : Word) : Byte := w.extractLsb' 0 8

/-! ### The decoder by families (R78) -/

/-- Family 0: the exact patterns before the fallback `0nnn` (R74); never `Unknown`. -/
def decodeFamily0 (w : Word) : Instr :=
  if w = 0x00E0#16 then .clearScreen
  else if w = 0x00EE#16 then .ret
  else .sysCall (fieldAddr w)

/-- Family 8: the last nibble selects the register-register shape. -/
def decodeFamily8 (w : Word) : Instr :=
  match nibble4 w with
  | 0x0 => .loadRegToReg (fieldX w) (fieldY w)
  | 0x1 => .orRegs (fieldX w) (fieldY w)
  | 0x2 => .andRegs (fieldX w) (fieldY w)
  | 0x3 => .xorRegs (fieldX w) (fieldY w)
  | 0x4 => .addRegToReg (fieldX w) (fieldY w)
  | 0x5 => .subRegFromReg (fieldX w) (fieldY w)
  | 0x6 => .shiftRight (fieldX w) (fieldY w)
  | 0x7 => .subRegFromRegReversed (fieldX w) (fieldY w)
  | 0xE => .shiftLeft (fieldX w) (fieldY w)
  | _ => .unknown w

/-- Family E: the low byte selects the key shape. -/
def decodeFamilyE (w : Word) : Instr :=
  match (fieldValue w).toNat with
  | 0x9E => .skipIfKeyPressed (fieldX w)
  | 0xA1 => .skipIfKeyNotPressed (fieldX w)
  | _ => .unknown w

/-- Family F: the low byte selects the shape. -/
def decodeFamilyF (w : Word) : Instr :=
  match (fieldValue w).toNat with
  | 0x07 => .loadDelayTimerToReg (fieldX w)
  | 0x0A => .waitKeyToReg (fieldX w)
  | 0x15 => .loadRegToDelayTimer (fieldX w)
  | 0x18 => .loadRegToSoundTimer (fieldX w)
  | 0x1E => .addRegToI (fieldX w)
  | 0x29 => .loadFontAddrToI (fieldX w)
  | 0x33 => .storeBcd (fieldX w)
  | 0x55 => .storeRegsToMem (fieldX w)
  | 0x65 => .loadRegsFromMem (fieldX w)
  | _ => .unknown w

/-- The decoder: total, with `Unknown` as the fallback and no refusal (R75, R80). The last arm is never
taken, since a nibble is at most 0xF. -/
def decode (w : Word) : Instr :=
  match nibble1 w with
  | 0x0 => decodeFamily0 w
  | 0x1 => .jump (fieldAddr w)
  | 0x2 => .call (fieldAddr w)
  | 0x3 => .skipIfRegValEqual (fieldX w) (fieldValue w)
  | 0x4 => .skipIfRegValNotEqual (fieldX w) (fieldValue w)
  | 0x5 => if nibble4 w = 0 then .skipIfRegsEqual (fieldX w) (fieldY w) else .unknown w
  | 0x6 => .loadValToReg (fieldX w) (fieldValue w)
  | 0x7 => .addValToReg (fieldX w) (fieldValue w)
  | 0x8 => decodeFamily8 w
  | 0x9 => if nibble4 w = 0 then .skipIfRegsNotEqual (fieldX w) (fieldY w) else .unknown w
  | 0xA => .loadValToI (fieldAddr w)
  | 0xB => .jumpPlusV0 (fieldAddr w)
  | 0xC => .loadRandomAndValToReg (fieldX w) (fieldValue w)
  | 0xD => .drawSprite (fieldX w) (fieldY w) (fieldN w)
  | 0xE => decodeFamilyE w
  | 0xF => decodeFamilyF w
  | _ => .unknown w

/-- `w` matches none of rows 1 to 35, family by family (R78): the words of `Unknown`. -/
def unclaimedWord (w : Word) : Bool :=
  let low := (fieldValue w).toNat
  let n4 := nibble4 w
  match nibble1 w with
  | 0x5 => n4 != 0
  | 0x8 => n4 == 0x8 || n4 == 0x9 || n4 == 0xA || n4 == 0xB || n4 == 0xC || n4 == 0xD || n4 == 0xF
  | 0x9 => n4 != 0
  | 0xE => low != 0x9E && low != 0xA1
  | 0xF => low != 0x07 && low != 0x0A && low != 0x15 && low != 0x18 && low != 0x1E && low != 0x29 &&
      low != 0x33 && low != 0x55 && low != 0x65
  | _ => false

/-- `addr` leaves a word of `0nnn` that rows 1 and 2 do not own (R74). -/
def sysCallAddress (addr : Address) : Bool := addr != 0x0E0#12 && addr != 0x0EE#12

/-- An instruction occupies two consecutive bytes, the most significant at the lower address (R70, R57). -/
def wordOfBytes (hi lo : Byte) : Word := hi ++ lo

/-- The bytes of a word in the order memory holds them (R57). -/
def bytesOfWord (w : Word) : List Byte := [w.extractLsb' 8 8, w.extractLsb' 0 8]

/-- The instruction word a table row stands for: the bits the table leaves out are 0. -/
def tableWord (nbits w : Nat) : Word := BitVec.ofNat 16 (w % 2 ^ nbits)

/-- The decoder on a table row's word: every instruction is one 16-bit word (R70), so a longer one is refused. -/
def decodeTableWord (nbits w : Nat) : Option Instr :=
  if nbits ≤ 16 then some (decode (tableWord nbits w)) else none

/-! ### Classes (R73) -/

/-- The class of a decoded instruction. -/
inductive ShapeClass where
  | flowControl
  | regular
  | unknown
deriving DecidableEq, Repr

/-- The class tag of the decoded value; the four FlowControl shapes are those the source lists (R73). -/
def Instr.shapeClass : Instr → ShapeClass
  | .ret | .jump _ | .call _ | .jumpPlusV0 _ => .flowControl
  | .unknown _ => .unknown
  | .clearScreen | .sysCall _ | .skipIfRegValEqual _ _ | .skipIfRegValNotEqual _ _ | .skipIfRegsEqual _ _
  | .loadValToReg _ _ | .addValToReg _ _ | .loadRegToReg _ _ | .orRegs _ _ | .andRegs _ _ | .xorRegs _ _
  | .addRegToReg _ _ | .subRegFromReg _ _ | .shiftRight _ _ | .subRegFromRegReversed _ _ | .shiftLeft _ _
  | .skipIfRegsNotEqual _ _ | .loadValToI _ | .loadRandomAndValToReg _ _ | .drawSprite _ _ _
  | .skipIfKeyPressed _ | .skipIfKeyNotPressed _ | .loadDelayTimerToReg _ | .waitKeyToReg _
  | .loadRegToDelayTimer _ | .loadRegToSoundTimer _ | .addRegToI _ | .loadFontAddrToI _ | .storeBcd _
  | .storeRegsToMem _ | .loadRegsFromMem _ => .regular

/-- The ten effective shapes (R12, R81). -/
def Instr.effective : Instr → Bool
  | .ret | .jump _ | .call _ | .jumpPlusV0 _ | .loadValToReg _ _ | .loadValToI _
  | .loadRandomAndValToReg _ _ | .addValToReg _ _ | .skipIfRegValEqual _ _ | .drawSprite _ _ _ => true
  | .clearScreen | .sysCall _ | .skipIfRegValNotEqual _ _ | .skipIfRegsEqual _ _ | .loadRegToReg _ _
  | .orRegs _ _ | .andRegs _ _ | .xorRegs _ _ | .addRegToReg _ _ | .subRegFromReg _ _ | .shiftRight _ _
  | .subRegFromRegReversed _ _ | .shiftLeft _ _ | .skipIfRegsNotEqual _ _ | .skipIfKeyPressed _
  | .skipIfKeyNotPressed _ | .loadDelayTimerToReg _ | .waitKeyToReg _ | .loadRegToDelayTimer _
  | .loadRegToSoundTimer _ | .addRegToI _ | .loadFontAddrToI _ | .storeBcd _ | .storeRegsToMem _
  | .loadRegsFromMem _ | .unknown _ => false

/-! ### The ordered table (R74, R77) -/

/-- One row of R77's table. -/
structure Row where
  priority : Nat
  mask : Word
  pattern : Word
  shapeClass : ShapeClass
  build : Word → Instr

/-- `(w and mask) = match`. -/
def Row.hits (r : Row) (w : Word) : Bool := (w &&& r.mask) == r.pattern

/-- R77's rows of families 0 to 7. -/
def rowsLow : List Row :=
  [⟨1, 0xFFFF#16, 0x00E0#16, .regular, fun _ => .clearScreen⟩,
   ⟨2, 0xFFFF#16, 0x00EE#16, .flowControl, fun _ => .ret⟩,
   ⟨3, 0xF000#16, 0x0000#16, .regular, fun w => .sysCall (fieldAddr w)⟩,
   ⟨4, 0xF000#16, 0x1000#16, .flowControl, fun w => .jump (fieldAddr w)⟩,
   ⟨5, 0xF000#16, 0x2000#16, .flowControl, fun w => .call (fieldAddr w)⟩,
   ⟨6, 0xF000#16, 0x3000#16, .regular, fun w => .skipIfRegValEqual (fieldX w) (fieldValue w)⟩,
   ⟨7, 0xF000#16, 0x4000#16, .regular, fun w => .skipIfRegValNotEqual (fieldX w) (fieldValue w)⟩,
   ⟨8, 0xF00F#16, 0x5000#16, .regular, fun w => .skipIfRegsEqual (fieldX w) (fieldY w)⟩,
   ⟨9, 0xF000#16, 0x6000#16, .regular, fun w => .loadValToReg (fieldX w) (fieldValue w)⟩,
   ⟨10, 0xF000#16, 0x7000#16, .regular, fun w => .addValToReg (fieldX w) (fieldValue w)⟩]

/-- R77's rows of family 8. -/
def rowsFamily8 : List Row :=
  [⟨11, 0xF00F#16, 0x8000#16, .regular, fun w => .loadRegToReg (fieldX w) (fieldY w)⟩,
   ⟨12, 0xF00F#16, 0x8001#16, .regular, fun w => .orRegs (fieldX w) (fieldY w)⟩,
   ⟨13, 0xF00F#16, 0x8002#16, .regular, fun w => .andRegs (fieldX w) (fieldY w)⟩,
   ⟨14, 0xF00F#16, 0x8003#16, .regular, fun w => .xorRegs (fieldX w) (fieldY w)⟩,
   ⟨15, 0xF00F#16, 0x8004#16, .regular, fun w => .addRegToReg (fieldX w) (fieldY w)⟩,
   ⟨16, 0xF00F#16, 0x8005#16, .regular, fun w => .subRegFromReg (fieldX w) (fieldY w)⟩,
   ⟨17, 0xF00F#16, 0x8006#16, .regular, fun w => .shiftRight (fieldX w) (fieldY w)⟩,
   ⟨18, 0xF00F#16, 0x8007#16, .regular, fun w => .subRegFromRegReversed (fieldX w) (fieldY w)⟩,
   ⟨19, 0xF00F#16, 0x800E#16, .regular, fun w => .shiftLeft (fieldX w) (fieldY w)⟩]

/-- R77's rows of families 9 to E. -/
def rowsHigh : List Row :=
  [⟨20, 0xF00F#16, 0x9000#16, .regular, fun w => .skipIfRegsNotEqual (fieldX w) (fieldY w)⟩,
   ⟨21, 0xF000#16, 0xA000#16, .regular, fun w => .loadValToI (fieldAddr w)⟩,
   ⟨22, 0xF000#16, 0xB000#16, .flowControl, fun w => .jumpPlusV0 (fieldAddr w)⟩,
   ⟨23, 0xF000#16, 0xC000#16, .regular, fun w => .loadRandomAndValToReg (fieldX w) (fieldValue w)⟩,
   ⟨24, 0xF000#16, 0xD000#16, .regular, fun w => .drawSprite (fieldX w) (fieldY w) (fieldN w)⟩,
   ⟨25, 0xF0FF#16, 0xE09E#16, .regular, fun w => .skipIfKeyPressed (fieldX w)⟩,
   ⟨26, 0xF0FF#16, 0xE0A1#16, .regular, fun w => .skipIfKeyNotPressed (fieldX w)⟩]

/-- R77's rows of family F and the fallback row, whose mask 0 matches every word. -/
def rowsFamilyF : List Row :=
  [⟨27, 0xF0FF#16, 0xF007#16, .regular, fun w => .loadDelayTimerToReg (fieldX w)⟩,
   ⟨28, 0xF0FF#16, 0xF00A#16, .regular, fun w => .waitKeyToReg (fieldX w)⟩,
   ⟨29, 0xF0FF#16, 0xF015#16, .regular, fun w => .loadRegToDelayTimer (fieldX w)⟩,
   ⟨30, 0xF0FF#16, 0xF018#16, .regular, fun w => .loadRegToSoundTimer (fieldX w)⟩,
   ⟨31, 0xF0FF#16, 0xF01E#16, .regular, fun w => .addRegToI (fieldX w)⟩,
   ⟨32, 0xF0FF#16, 0xF029#16, .regular, fun w => .loadFontAddrToI (fieldX w)⟩,
   ⟨33, 0xF0FF#16, 0xF033#16, .regular, fun w => .storeBcd (fieldX w)⟩,
   ⟨34, 0xF0FF#16, 0xF055#16, .regular, fun w => .storeRegsToMem (fieldX w)⟩,
   ⟨35, 0xF0FF#16, 0xF065#16, .regular, fun w => .loadRegsFromMem (fieldX w)⟩,
   ⟨36, 0x0000#16, 0x0000#16, .unknown, fun w => .unknown w⟩]

/-- The ordered decode table of R77, in priority order. -/
def decodeTable : List Row := rowsLow ++ rowsFamily8 ++ rowsHigh ++ rowsFamilyF

/-- R74's reading of the table: the first row whose pattern matches gives the shape. -/
def firstMatch (w : Word) : Option Instr :=
  (decodeTable.find? (fun r => r.hits w)).map (fun r => r.build w)

/-! ### The encoder (R76, R82) -/

/-- Format `NNN`: `w[15:12]` = opcode, `w[11:0]` = the 12-bit field (R76). -/
def formNNN (op : BitVec 4) (addr : Address) : Word := op ++ addr

/-- Format `XKK`: opcode, `x`, `value` (R76). -/
def formXKK (op : BitVec 4) (x : RegIndex) (value : Byte) : Word :=
  op ++ ((BitVec.ofFin x : BitVec 4) ++ value : BitVec 12)

/-- Formats `XY` and `XYN`: opcode, `x`, `y`, then the sub-opcode or `n` (R76). -/
def formXYN (op : BitVec 4) (x y : RegIndex) (n : BitVec 4) : Word :=
  op ++ ((BitVec.ofFin x : BitVec 4) ++ ((BitVec.ofFin y : BitVec 4) ++ n : BitVec 8) : BitVec 12)

/-- The word of an instruction: `match or (fields placed at the positions of rule R76)` (R82). -/
def encode : Instr → Word
  | .clearScreen => 0x00E0#16
  | .ret => 0x00EE#16
  | .sysCall addr => formNNN 0x0#4 addr
  | .jump addr => formNNN 0x1#4 addr
  | .call addr => formNNN 0x2#4 addr
  | .skipIfRegValEqual x value => formXKK 0x3#4 x value
  | .skipIfRegValNotEqual x value => formXKK 0x4#4 x value
  | .skipIfRegsEqual x y => formXYN 0x5#4 x y 0x0#4
  | .loadValToReg x value => formXKK 0x6#4 x value
  | .addValToReg x value => formXKK 0x7#4 x value
  | .loadRegToReg x y => formXYN 0x8#4 x y 0x0#4
  | .orRegs x y => formXYN 0x8#4 x y 0x1#4
  | .andRegs x y => formXYN 0x8#4 x y 0x2#4
  | .xorRegs x y => formXYN 0x8#4 x y 0x3#4
  | .addRegToReg x y => formXYN 0x8#4 x y 0x4#4
  | .subRegFromReg x y => formXYN 0x8#4 x y 0x5#4
  | .shiftRight x y => formXYN 0x8#4 x y 0x6#4
  | .subRegFromRegReversed x y => formXYN 0x8#4 x y 0x7#4
  | .shiftLeft x y => formXYN 0x8#4 x y 0xE#4
  | .skipIfRegsNotEqual x y => formXYN 0x9#4 x y 0x0#4
  | .loadValToI value => formNNN 0xA#4 value
  | .jumpPlusV0 addr => formNNN 0xB#4 addr
  | .loadRandomAndValToReg x value => formXKK 0xC#4 x value
  | .drawSprite x y n => formXYN 0xD#4 x y (BitVec.ofFin n)
  | .skipIfKeyPressed x => formXKK 0xE#4 x 0x9E#8
  | .skipIfKeyNotPressed x => formXKK 0xE#4 x 0xA1#8
  | .loadDelayTimerToReg x => formXKK 0xF#4 x 0x07#8
  | .waitKeyToReg x => formXKK 0xF#4 x 0x0A#8
  | .loadRegToDelayTimer x => formXKK 0xF#4 x 0x15#8
  | .loadRegToSoundTimer x => formXKK 0xF#4 x 0x18#8
  | .addRegToI x => formXKK 0xF#4 x 0x1E#8
  | .loadFontAddrToI x => formXKK 0xF#4 x 0x29#8
  | .storeBcd x => formXKK 0xF#4 x 0x33#8
  | .storeRegsToMem x => formXKK 0xF#4 x 0x55#8
  | .loadRegsFromMem x => formXKK 0xF#4 x 0x65#8
  | .unknown word => word

/-! ### The assembly notation (R82) -/

/-- A line of an assembly program: an instruction, or `.byte literal` (R82). -/
inductive Statement where
  | instruction (i : Instr)
  | byte (b : Byte)
deriving DecidableEq, Repr

/-- The bytes a line assembles to. -/
def Statement.bytes : Statement → List Byte
  | .instruction i => bytesOfWord (encode i)
  | .byte b => [b]

/-- The ROM a program assembles to: its lines' bytes, in order. -/
def assemble : List Statement → List Byte
  | [] => []
  | l :: ls => l.bytes ++ assemble ls

/-- The shape name, as the table spells it (R77). -/
def Instr.mnemonic : Instr → String
  | .clearScreen => "ClearScreen"
  | .ret => "Return"
  | .sysCall _ => "SysCall"
  | .jump _ => "Jump"
  | .call _ => "Call"
  | .skipIfRegValEqual _ _ => "SkipIfRegValEqual"
  | .skipIfRegValNotEqual _ _ => "SkipIfRegValNotEqual"
  | .skipIfRegsEqual _ _ => "SkipIfRegsEqual"
  | .loadValToReg _ _ => "LoadValToReg"
  | .addValToReg _ _ => "AddValToReg"
  | .loadRegToReg _ _ => "LoadRegToReg"
  | .orRegs _ _ => "OrRegs"
  | .andRegs _ _ => "AndRegs"
  | .xorRegs _ _ => "XorRegs"
  | .addRegToReg _ _ => "AddRegToReg"
  | .subRegFromReg _ _ => "SubRegFromReg"
  | .shiftRight _ _ => "ShiftRight"
  | .subRegFromRegReversed _ _ => "SubRegFromRegReversed"
  | .shiftLeft _ _ => "ShiftLeft"
  | .skipIfRegsNotEqual _ _ => "SkipIfRegsNotEqual"
  | .loadValToI _ => "LoadValToI"
  | .jumpPlusV0 _ => "JumpPlusV0"
  | .loadRandomAndValToReg _ _ => "LoadRandomAndValToReg"
  | .drawSprite _ _ _ => "DrawSprite"
  | .skipIfKeyPressed _ => "SkipIfKeyPressed"
  | .skipIfKeyNotPressed _ => "SkipIfKeyNotPressed"
  | .loadDelayTimerToReg _ => "LoadDelayTimerToReg"
  | .waitKeyToReg _ => "WaitKeyToReg"
  | .loadRegToDelayTimer _ => "LoadRegToDelayTimer"
  | .loadRegToSoundTimer _ => "LoadRegToSoundTimer"
  | .addRegToI _ => "AddRegToI"
  | .loadFontAddrToI _ => "LoadFontAddrToI"
  | .storeBcd _ => "StoreBcd"
  | .storeRegsToMem _ => "StoreRegsToMem"
  | .loadRegsFromMem _ => "LoadRegsFromMem"
  | .unknown _ => "Unknown"

/-- The operand fields, named and in the order the table lists them (R82). -/
def Instr.fields : Instr → List (String × Nat)
  | .clearScreen | .ret => []
  | .sysCall addr | .jump addr | .call addr | .jumpPlusV0 addr => [("addr", addr.toNat)]
  | .loadValToI value => [("value", value.toNat)]
  | .skipIfRegValEqual x value | .skipIfRegValNotEqual x value | .loadValToReg x value
  | .addValToReg x value | .loadRandomAndValToReg x value => [("x", x.val), ("value", value.toNat)]
  | .skipIfRegsEqual x y | .loadRegToReg x y | .orRegs x y | .andRegs x y | .xorRegs x y
  | .addRegToReg x y | .subRegFromReg x y | .shiftRight x y | .subRegFromRegReversed x y
  | .shiftLeft x y | .skipIfRegsNotEqual x y => [("x", x.val), ("y", y.val)]
  | .drawSprite x y n => [("x", x.val), ("y", y.val), ("n", n.val)]
  | .skipIfKeyPressed x | .skipIfKeyNotPressed x | .loadDelayTimerToReg x | .waitKeyToReg x
  | .loadRegToDelayTimer x | .loadRegToSoundTimer x | .addRegToI x | .loadFontAddrToI x | .storeBcd x
  | .storeRegsToMem x | .loadRegsFromMem x => [("x", x.val)]
  | .unknown word => [("word", word.toNat)]

/-- The fields as `name:literal`, separated by commas. -/
def fieldList : List (String × Nat) → String
  | [] => ""
  | [(name, k)] => name ++ ":" ++ k.repr
  | (name, k) :: fs => name ++ ":" ++ k.repr ++ ", " ++ fieldList fs

/-- The instruction in the notation of R82, literals in decimal: the shape name, then the fields in braces;
a shape without fields is written bare. The braces are the characters 123 and 125. -/
def Instr.text (i : Instr) : String :=
  match i.fields with
  | [] => i.mnemonic
  | fs => i.mnemonic ++ String.singleton (Char.ofNat 123) ++ fieldList fs ++ String.singleton (Char.ofNat 125)

end Sys2Proof
end

