-- ==== Sys2Proof/Config.lean ====
section
/-! DEFINITION. The sizes the spec fixes (spec/00_scope.md R6). The spec leaves no value of this core open:
its two open parameters, the ROM and the iteration budget (R8), are arguments of `State.loadRom` and of
`Host.Core.run`, so Config holds no free value. -/

namespace Sys2Proof.Config

/-- Bytes of `memory`; valid addresses are 0 to 4095 (R51). -/
def memSize : Nat := 4096

/-- Where the ROM is loaded and where `program_counter` starts after reset (R6, R35). -/
def loadAddress : Nat := 512

/-- The longest ROM `LoadROM` accepts: 4096 - 512 bytes (R193). -/
def maxRomLength : Nat := memSize - loadAddress

/-- Columns of the display (R36). -/
def displayWidth : Nat := 64

/-- Rows of the display (R36). -/
def displayHeight : Nat := 32

/-- Pixels of `display_memory` (R36). -/
def displaySize : Nat := 2048

/-- What an unlisted address of `memory` reads as: reset fills every byte with 0x00 (R35). -/
def unlistedByte : Byte := 0x00#8

end Sys2Proof.Config
end

