-- ==== Sys2Proof/Machine/State.lean ====
section
/-! DEFINITION. The Machine State as plain data (spec/10_state.md R20 to R39), the reasons a step or a host
operation can stop, and the state after reset (R35). The fields bear the spec's own names. -/

namespace Sys2Proof.Machine

/-- A fatal condition, as the record the spec latches in `fault`: `(code, kind, pc, info)`
(spec/60_exceptions.md R171). It is TAKEN, not stopped at: a faulting step answers a next state whose `fault`
field holds the record (R176), so `step` itself never answers `Host.Outcome.fault`. `State.outcome` (Safety.lean)
reads a halted state as that outcome, so a run that faulted never counts as a successful one (R101). -/
inductive Fault where
  /-- Code 1. Latched by `Return` with an empty stack (R172). Safe: the record is the spec's. -/
  | stackUnderflow (pc : Word)
  /-- Code 2. Latched by the fetch of any step with `program_counter >= 0x0FFF` (R173). Safe: the record is the
  spec's. -/
  | outOfBoundsFetch (pc : Word)
  /-- Code 3. Latched by `DrawSprite` when its rows do not lie inside `memory` (R174). Safe: the record is the
  spec's. -/
  | outOfBoundsSprite (pc : Word) (reg_i : Word)
  /-- Code 4. Latched by `LoadROM` with a ROM longer than 3584 bytes (R175); no instruction raises it. Safe:
  the record is the spec's. -/
  | resourceOverflow (length : Nat)
deriving DecidableEq, Repr

/-- What a model answers where it gives no meaning. No instruction of this core is refused. -/
inductive Refusal where
  /-- Raised by an arm of `exec` for an instruction with no meaning yet; no arm raises it. Safe. -/
  | notModelled (mnemonic : String)
  /-- Raised by the host interface for a `LoadROM` after the first step, or a second one since reset, to which the
  spec gives no meaning (spec/70_reset_and_hazards.md R197). Safe: nothing is claimed of such a run. -/
  | loadNotPermitted
deriving DecidableEq, Repr

/-- `memory` as the listed bytes: addresses strictly rising, and no entry equal to what an unlisted address reads
as (`Memory.wf` in Ops.lean). -/
abbrev Memory := List Host.Cell

/-- `display_memory`: "64×32 ordered sequence of booleans", row-major, index `x + 64*y`, length fixed at 2048
(R36). The length travels with the pixels. -/
structure Framebuffer where
  pixels : List Bool
  length_eq : pixels.length = Config.displaySize
deriving DecidableEq, Repr

/-- The index of a pixel (R36). -/
abbrev PixelIndex := Fin Config.displaySize

/-- The Machine State: the ten fields of the source's record and the spec's fault latch (R20). -/
structure State where
  /-- 4096 bytes (R51). -/
  memory : Memory
  /-- The address of the next instruction word to fetch (R24). -/
  program_counter : Word
  /-- The sixteen general registers (R21); `v[15]` is also the collision flag VF (R23). -/
  v : Vector Byte 16
  /-- The index register (R28). -/
  reg_i : Word
  /-- The return addresses, the top LAST, as the spec writes them (R29, vector V22). -/
  stack : List Word
  /-- Storage that nothing writes but reset (R31). -/
  delay_timer : Byte
  /-- Storage that nothing writes but reset (R31). -/
  sound_timer : Byte
  /-- The sixteen key states, which nothing drives (R34). -/
  keyboard : Vector Bool 16
  /-- The 2048 pixels (R36). -/
  display_memory : Framebuffer
  /-- The alternating pseudo-random cursor (R37). -/
  rng : Bool
  /-- The fault latch: `none`, or the record of the fatal condition that halted the core (R32). -/
  fault : Option Fault
deriving DecidableEq, Repr

/-- What one instruction or one step answers. -/
abbrev Result := Host.Outcome State Fault Refusal

/-- All 2048 pixels off (R35). -/
def Framebuffer.blank : Framebuffer :=
  ⟨List.replicate Config.displaySize false, List.length_replicate⟩

/-- The state after reset: "all zero except `program_counter = 512`" (R35, R190). The spec states every value. -/
def State.reset : State where
  memory := []
  program_counter := BitVec.ofNat 16 Config.loadAddress
  v := Vector.replicate 16 0x00#8
  reg_i := 0x0000#16
  stack := []
  delay_timer := 0x00#8
  sound_timer := 0x00#8
  keyboard := Vector.replicate 16 false
  display_memory := Framebuffer.blank
  rng := false
  fault := none

end Sys2Proof.Machine
end

