-- ==== Sys2Proof/Machine/Ops.lean ====
section
/-! DEFINITION. The named operations over memory, registers, stack, display and fault latch, and taking a fatal
condition (spec/20_memory.md, spec/10_state.md, spec/60_exceptions.md). -/

namespace Sys2Proof.Machine

/-! ### Memory (R51 to R58) -/

/-- The canonical form: addresses inside the 4096 bytes and strictly rising, no entry equal to what an unlisted
address reads as. -/
def Memory.wf : Memory → Bool
  | [] => true
  | (a, b) :: m => decide (a < Config.memSize) && b != Config.unlistedByte && m.all (fun c => a < c.1) &&
      Memory.wf m

/-- The byte at an address; an unlisted address holds what reset left there (R35). -/
def Memory.read : Memory → Nat → Byte
  | [], _ => Config.unlistedByte
  | (k, b) :: m, a => if k = a then b else Memory.read m a

/-- `memory` with the byte at `a` replaced, in canonical form. Only `LoadROM` writes memory (R56). -/
def Memory.write : Memory → Nat → Byte → Memory
  | [], a, b => if b = Config.unlistedByte then [] else [(a, b)]
  | (k, c) :: m, a, b =>
    if k < a then (k, c) :: Memory.write m a b
    else
      let rest := if k = a then m else (k, c) :: m
      if b = Config.unlistedByte then rest else (a, b) :: rest

/-- `memory` with the bytes written from `a` upwards, in order. -/
def Memory.writeBytes : Memory → Nat → List Byte → Memory
  | m, _, [] => m
  | m, a, b :: bs => Memory.writeBytes (Memory.write m a b) (a + 1) bs

/-- The `n` bytes from `a` upwards. -/
def Memory.readBytes (m : Memory) (a n : Nat) : List Byte :=
  (List.range n).map (fun k => m.read (a + k))

/-- Reading `n` bytes at `a` touches an address above 4095, on unbounded naturals (R53, R137). -/
def beyondMemory (a n : Nat) : Bool := decide (n ≥ 1 ∧ a + n - 1 > 4095)

/-! ### Taking a fatal condition (R176) -/

/-- `raise F(info)`: the step has no other effect, and `fault` receives the record (R176, R100). -/
def State.latch (s : State) (f : Fault) : State := { s with fault := some f }

/-- Taking a fatal condition answers a next state: there is no handler, no saved register and no change of
`program_counter`, and from then on the core is halted (R176, R101). -/
def raise (f : Fault) (s : State) : Result := .next (s.latch f)

/-- A halted core's step: "a step request leaves the whole state, including `fault`, unchanged" (R101). -/
def stayHalted (s : State) : Result := .next s

/-- Who reads memory: the `kind` of an `OutOfBounds` (R53). -/
inductive AccessKind where
  | fetch
  | sprite
deriving DecidableEq, Repr

/-- The record of an out-of-bounds read (R171): a fetch records `program_counter`, which is its address; a sprite
read records `reg_i`. -/
def State.outOfBounds (s : State) : AccessKind → Fault
  | .fetch => .outOfBoundsFetch s.program_counter
  | .sprite => .outOfBoundsSprite s.program_counter s.reg_i

/-- `code` of R171. -/
def Fault.code : Fault → Nat
  | .stackUnderflow _ => 1
  | .outOfBoundsFetch _ => 2
  | .outOfBoundsSprite _ _ => 3
  | .resourceOverflow _ => 4

/-- `kind` of R171, which only an `OutOfBounds` has. -/
def Fault.kind : Fault → Option AccessKind
  | .stackUnderflow _ => none
  | .outOfBoundsFetch _ => some .fetch
  | .outOfBoundsSprite _ _ => some .sprite
  | .resourceOverflow _ => none

/-- `pc` of R171: `program_counter` at the start of the faulting step, and 0x0200 for code 4. -/
def Fault.pc : Fault → Word
  | .stackUnderflow pc => pc
  | .outOfBoundsFetch pc => pc
  | .outOfBoundsSprite pc _ => pc
  | .resourceOverflow _ => 0x0200#16

/-- `info` of R171. -/
def Fault.info : Fault → Option Nat
  | .stackUnderflow _ => none
  | .outOfBoundsFetch pc => some pc.toNat
  | .outOfBoundsSprite _ reg_i => some reg_i.toNat
  | .resourceOverflow length => some length

/-! ### The read primitive `MemRead` (R53) -/

/-- `MemRead` of `n` single bytes, as `DrawSprite` makes them; `n = 1` is `MemRead(addr, 1)` (R53, R58). -/
def State.memReadBytes (s : State) (kind : AccessKind) (a n : Nat) : Except Fault (List Byte) :=
  if beyondMemory a n then .error (s.outOfBounds kind) else .ok (s.memory.readBytes a n)

/-- `MemRead(addr, 2)`: the byte at the lower address in bits 15:8 (R53, R57). -/
def State.memRead2 (s : State) (kind : AccessKind) (a : Nat) : Except Fault Word :=
  if beyondMemory a 2 then .error (s.outOfBounds kind)
  else .ok (wordOfBytes (s.memory.read a) (s.memory.read (a + 1)))

/-- The instruction fetch: two bytes at `program_counter`, even or odd (R54, R55). -/
def State.fetch (s : State) : Except Fault Word := s.memRead2 .fetch s.program_counter.toNat

/-- The `n` sprite bytes at `reg_i`, the whole range checked before any is used (R132, R137). -/
def State.spriteBytes (s : State) (n : RowCount) : Except Fault (List Byte) :=
  s.memReadBytes .sprite s.reg_i.toNat n.val

/-- `s` with the word `w` stored where the next fetch reads it, most significant byte first. A core that could not fetch
is made able to: the latch is cleared, and a `program_counter` whose fetch would fault is set to the entry point. -/
def State.placeWord (s : State) (w : Word) : State :=
  let pc := if beyondMemory s.program_counter.toNat 2 then 0x0200#16 else s.program_counter
  { s with
    memory := s.memory.writeBytes pc.toNat (bytesOfWord w)
    program_counter := pc
    fault := none }

/-! ### Registers (R21 to R28) -/

/-- Reading `v[i]`. -/
def State.getV (s : State) (i : RegIndex) : Byte := s.v[i]

/-- `v[i] <- b`. -/
def State.setV (s : State) (i : RegIndex) (b : Byte) : State := { s with v := s.v.set i b }

/-- `program_counter <- target`; the write checks neither alignment nor range (R26). -/
def State.setPc (s : State) (target : Word) : State := { s with program_counter := target }

/-- `pc <- (pc + 2) mod 2^16` (R103). -/
def State.advancePc (s : State) : State := s.setPc (s.program_counter + 2#16)

/-- `reg_i <- a`. -/
def State.setI (s : State) (a : Word) : State := { s with reg_i := a }

/-- `rng <- not rng` (R37). -/
def State.flipRng (s : State) : State := { s with rng := !s.rng }

/-- `display_memory <- fb`. -/
def State.setDisplay (s : State) (fb : Framebuffer) : State := { s with display_memory := fb }

/-- `memory <- m`. -/
def State.setMemory (s : State) (m : Memory) : State := { s with memory := m }

/-! ### The stack (R29) -/

/-- `stack <- l`. -/
def State.setStack (s : State) (l : List Word) : State := { s with stack := l }

/-- `push(stack, e)` "appends `e` as the new top" (R10); the stack has no bound (R7). -/
def State.push (s : State) (e : Word) : State := s.setStack (s.stack ++ [e])

/-- `pop(stack)`: the most recently pushed entry and the state without it, or `none` when the stack is empty. -/
def State.pop (s : State) : Option (Word × State) :=
  match s.stack.getLast? with
  | none => none
  | some top => some (top, s.setStack s.stack.dropLast)

/-! ### The display (R36) -/

/-- The pixel at an index. -/
def Framebuffer.get (fb : Framebuffer) (i : PixelIndex) : Bool := fb.pixels[i.val]'(Nat.lt_of_lt_of_eq i.isLt fb.length_eq.symm)

/-- `fb[i] <- p`. -/
def Framebuffer.set (fb : Framebuffer) (i : PixelIndex) (p : Bool) : Framebuffer :=
  ⟨fb.pixels.set i.val p, List.length_set.trans fb.length_eq⟩

/-! ### Ending an instruction (R103) -/

/-- A FlowControl instruction has set `program_counter` itself; nothing is added. -/
def State.endFlow (s : State) : Result := .next s

/-- A Regular instruction (and `Unknown`) is followed by the engine's unconditional advance by 2. -/
def State.endRegular (s : State) : Result := .next s.advancePc

/-! ### The ROM load (spec/70_reset_and_hazards.md R193) -/

/-- `LoadROM(rom)`: the bytes are copied from address 512 upwards; a ROM longer than 3584 bytes is rejected, memory
unchanged and `ResourceOverflow` latched (R193, R175). -/
def State.loadRom (s : State) (rom : List Byte) : State :=
  if rom.length ≤ Config.maxRomLength then s.setMemory (s.memory.writeBytes Config.loadAddress rom)
  else s.latch (.resourceOverflow rom.length)

end Sys2Proof.Machine
end

