-- ==== Sys2Proof/Machine/Operands.lean ====
section
/-! DEFINITION. The operand forms: immediates, registers, jump targets, the random operand and the sprite's start
coordinates (spec/30_encoding.md R72, spec/42_regular_effective.md, spec/43_draw_sprite.md R131). Every field is
unsigned and taken unchanged; nothing is sign-extended or scaled (R72). -/

namespace Sys2Proof.Machine

/-- `zext_16(addr)` of a 12-bit field (R9, R72). -/
def zextAddress (a : Address) : Word := a.setWidth 16

/-- `zext_16(b)` of a byte (R9). -/
def zextByte (b : Byte) : Word := b.setWidth 16

/-- The target of `Jump` and `Call`, and the value `LoadValToI` writes: `zext_16` of the 12-bit field (R72). -/
def addressOperand (addr : Address) : Word := zextAddress addr

/-- The target of `JumpPlusV0`: `(zext_16(addr) + zext_16(v[0])) mod 2^16`, not reduced modulo 4096 (R111). -/
def State.indexedTarget (s : State) (addr : Address) : Word := zextAddress addr + zextByte (s.getV 0)

/-- `(v[x] + value) mod 2^8` (R123). -/
def State.sumOperand (s : State) (x : RegIndex) (value : Byte) : Byte := s.getV x + value

/-- The condition of `SkipIfRegValEqual`: equality of two unsigned bytes (R124). -/
def State.equalsOperand (s : State) (x : RegIndex) (value : Byte) : Bool := s.getV x == value

/-- `b2n`: a boolean as the 8-bit number 1 or 0 (R9). -/
def b2n (c : Bool) : Byte := if c then 0x01#8 else 0x00#8

/-- `b2n(rng) & value` (R122). -/
def State.randomOperand (s : State) (value : Byte) : Byte := b2n s.rng &&& value

/-- `start_x = v[x]`, the whole byte (R131). -/
def State.startX (s : State) (x : RegIndex) : Byte := s.getV x

/-- `start_y = v[y]`, the whole byte (R131). -/
def State.startY (s : State) (y : RegIndex) : Byte := s.getV y

end Sys2Proof.Machine
end

