-- ==== Sys2Proof/Machine/Flags.lean ====
section
/-! DEFINITION. The only flag-like state: VF, which is `v[15]`, as the collision flag of `DrawSprite`
(spec/10_state.md R27, spec/43_draw_sprite.md R133). No arithmetic instruction sets a flag. -/

namespace Sys2Proof.Machine

/-- The register that doubles as the collision flag (R23). -/
def vf : RegIndex := 15

/-- One XOR "turns a previously-lit pixel off": lit before and not lit after (R133). -/
def pixelCollision (old new : Bool) : Bool := old && !new

/-- `v[15] <- b2n(collision)` (R133). -/
def State.setVF (s : State) (collision : Bool) : State := s.setV vf (b2n collision)

end Sys2Proof.Machine
end

