-- ==== Sys2Proof/Machine/Draw.lean ====
section
/-! DEFINITION. The Display Compositor, a "sprite XOR-blit with wraparound and collision detection", and
`DrawSprite`, the one instruction that drives it (spec/43_draw_sprite.md R130 to R137). -/

namespace Sys2Proof.Machine

/-- What the compositor carries from pixel to pixel: the framebuffer and the sticky collision flag. -/
structure Canvas where
  fb : Framebuffer
  collision : Bool
deriving DecidableEq, Repr

/-- `((start_x + xx) mod 64) + 64 * ((start_y + yy) mod 32)`, on unbounded naturals (R133). -/
def pixelIndex (sx sy : Byte) (xx yy : Nat) : PixelIndex :=
  ⟨(sx.toNat + xx) % 64 + 64 * ((sy.toNat + yy) % 32), by simp only [Config.displaySize]; omega⟩

/-- Column `xx` of a sprite row is bit `7 - xx` of its byte: most significant bit first (R132). -/
def spritePixel (row : Byte) (xx : Nat) : Bool := row.getLsbD (7 - xx)

/-- One pixel: XOR it into the framebuffer, and note whether it turned a lit pixel off (R133). -/
def Canvas.drawPixel (c : Canvas) (i : PixelIndex) (p : Bool) : Canvas :=
  let old := c.fb.get i
  let new := old ^^ p
  ⟨c.fb.set i new, c.collision || pixelCollision old new⟩

/-- One row: columns 0 to 7 of the byte `row` at sprite row `yy`. -/
def Canvas.drawRow (sx sy : Byte) (yy : Nat) (row : Byte) (c : Canvas) : Canvas :=
  (List.range 8).foldl (fun c xx => c.drawPixel (pixelIndex sx sy xx yy) (spritePixel row xx)) c

/-- The rows in order, the first of the list being sprite row `yy`. -/
def Canvas.drawRows (sx sy : Byte) : Nat → List Byte → Canvas → Canvas
  | _, [], c => c
  | yy, row :: rows, c => Canvas.drawRows sx sy (yy + 1) rows (c.drawRow sx sy yy row)

/-- The compositor's contract, `draw_sprite(display_memory, …) -> (display_memory', collision)`, given the bytes it
reads from memory: the flag starts `false` at every draw (R130, R133). -/
def composite (fb : Framebuffer) (rows : List Byte) (sx sy : Byte) : Canvas :=
  Canvas.drawRows sx sy 0 rows ⟨fb, false⟩

/-- `DrawSprite(x, y, n)`: both coordinates are read before VF is written (R134); a range beyond memory is taken as
`OutOfBounds(sprite, reg_i)` before any pixel changes (R137). -/
def execDrawSprite (x y : RegIndex) (n : RowCount) (s : State) : Result :=
  match s.spriteBytes n with
  | .error f => raise f s
  | .ok rows =>
    let c := composite s.display_memory rows (s.startX x) (s.startY y)
    ((s.setDisplay c.fb).setVF c.collision).endRegular

end Sys2Proof.Machine
end

