-- ==== Sys2Proof/Machine/Flow.lean ====
section
/-! DEFINITION. The FlowControl instructions (spec/41_flow_control.md R110 to R113): each sets `program_counter`
itself and receives no further advance. -/

namespace Sys2Proof.Machine

/-- `Jump(addr)` (R110). -/
def execJump (addr : Address) (s : State) : Result :=
  (s.setPc (addressOperand addr)).endFlow

/-- `JumpPlusV0(addr)` (R111). -/
def execJumpPlusV0 (addr : Address) (s : State) : Result :=
  (s.setPc (s.indexedTarget addr)).endFlow

/-- `Call(addr)`: the pushed address is that of this `Call`, NOT of its successor (R112). -/
def execCall (addr : Address) (s : State) : Result :=
  ((s.push s.program_counter).setPc (addressOperand addr)).endFlow

/-- `Return`: control goes back to the popped address itself, or `StackUnderflow` is taken (R113, R172). -/
def execReturn (s : State) : Result :=
  match s.pop with
  | none => raise (.stackUnderflow s.program_counter) s
  | some (top, s') => (s'.setPc top).endFlow

end Sys2Proof.Machine
end

