-- ==== Sys2Proof/Machine/NoOp.lean ====
section
/-! DEFINITION. The no-op shapes and `Unknown` (spec/44_noop_shapes.md R140 to R165). "All other `Regular` shapes →
state unchanged (PC still advances per policy)"; the canonical CHIP-8 meaning of these shapes is not in this
hardware (spec/00_scope.md R5, spec/93_implementation_defined.md U1). -/

namespace Sys2Proof.Machine

/-- The common semantics of every no-op shape: `pc <- (pc + 2) mod 2^16` and nothing else (R140). -/
def noOp (s : State) : Result := s.endRegular

/-- `ClearScreen`: the framebuffer is NOT cleared (R141). -/
def execClearScreen (s : State) : Result := noOp s

/-- `SkipIfRegValNotEqual`: never skips, whatever `v[x]` holds (R142). -/
def execSkipIfRegValNotEqual (_x : RegIndex) (_value : Byte) (s : State) : Result := noOp s

/-- `SkipIfRegsEqual`: never skips, even when `x = y` (R143). -/
def execSkipIfRegsEqual (_x _y : RegIndex) (s : State) : Result := noOp s

/-- `LoadRegToReg`: `v[x]` keeps its value (R144). -/
def execLoadRegToReg (_x _y : RegIndex) (s : State) : Result := noOp s

/-- `OrRegs`: `v[x]` keeps its value (R145). -/
def execOrRegs (_x _y : RegIndex) (s : State) : Result := noOp s

/-- `AndRegs`: `v[x]` keeps its value (R146). -/
def execAndRegs (_x _y : RegIndex) (s : State) : Result := noOp s

/-- `XorRegs`: `v[x]` keeps its value (R147). -/
def execXorRegs (_x _y : RegIndex) (s : State) : Result := noOp s

/-- `AddRegToReg`: neither `v[x]` nor VF changes (R148). -/
def execAddRegToReg (_x _y : RegIndex) (s : State) : Result := noOp s

/-- `SubRegFromReg`: neither `v[x]` nor VF changes (R149). -/
def execSubRegFromReg (_x _y : RegIndex) (s : State) : Result := noOp s

/-- `ShiftRight`: neither `v[x]` nor VF changes (R150). -/
def execShiftRight (_x _y : RegIndex) (s : State) : Result := noOp s

/-- `SubRegFromRegReversed`: neither `v[x]` nor VF changes (R151). -/
def execSubRegFromRegReversed (_x _y : RegIndex) (s : State) : Result := noOp s

/-- `ShiftLeft`: neither `v[x]` nor VF changes (R152). -/
def execShiftLeft (_x _y : RegIndex) (s : State) : Result := noOp s

/-- `SkipIfRegsNotEqual`: never skips (R153). -/
def execSkipIfRegsNotEqual (_x _y : RegIndex) (s : State) : Result := noOp s

/-- `SkipIfKeyPressed`: never skips and does not read `keyboard` (R154). -/
def execSkipIfKeyPressed (_x : RegIndex) (s : State) : Result := noOp s

/-- `SkipIfKeyNotPressed`: never skips, although no key is ever pressed (R155). -/
def execSkipIfKeyNotPressed (_x : RegIndex) (s : State) : Result := noOp s

/-- `LoadDelayTimerToReg`: `v[x]` keeps its value (R156). -/
def execLoadDelayTimerToReg (_x : RegIndex) (s : State) : Result := noOp s

/-- `WaitKeyToReg`: does NOT wait; `v[x]` keeps its value (R157). -/
def execWaitKeyToReg (_x : RegIndex) (s : State) : Result := noOp s

/-- `LoadRegToDelayTimer`: `delay_timer` keeps its value (R158). -/
def execLoadRegToDelayTimer (_x : RegIndex) (s : State) : Result := noOp s

/-- `LoadRegToSoundTimer`: `sound_timer` keeps its value (R159). -/
def execLoadRegToSoundTimer (_x : RegIndex) (s : State) : Result := noOp s

/-- `AddRegToI`: `reg_i` keeps its value (R160). -/
def execAddRegToI (_x : RegIndex) (s : State) : Result := noOp s

/-- `LoadFontAddrToI`: `reg_i` keeps its value (R161). -/
def execLoadFontAddrToI (_x : RegIndex) (s : State) : Result := noOp s

/-- `StoreBcd`: `memory` is not written and no bounds check is made (R162). -/
def execStoreBcd (_x : RegIndex) (s : State) : Result := noOp s

/-- `StoreRegsToMem`: `memory` is not written and no bounds check is made (R163). -/
def execStoreRegsToMem (_x : RegIndex) (s : State) : Result := noOp s

/-- `LoadRegsFromMem`: no register is written and no bounds check is made (R164). -/
def execLoadRegsFromMem (_x : RegIndex) (s : State) : Result := noOp s

/-- `Unknown`: there is no illegal-instruction condition (R165). -/
def execUnknown (_word : Word) (s : State) : Result := noOp s

end Sys2Proof.Machine
end

