-- ==== Sys2Proof/Machine/Regular.lean ====
section
/-! DEFINITION. The Regular instructions with listed semantics, but for `DrawSprite`
(spec/42_regular_effective.md R119 to R124). None of them can fault. -/

namespace Sys2Proof.Machine

/-- `SysCall(addr)`: "no state change (legacy no-op)" (R119). -/
def execSysCall (_addr : Address) (s : State) : Result := s.endRegular

/-- `LoadValToReg(x, value)` (R120). -/
def execLoadValToReg (x : RegIndex) (value : Byte) (s : State) : Result :=
  (s.setV x value).endRegular

/-- `LoadValToI(value)` (R121). -/
def execLoadValToI (value : Address) (s : State) : Result :=
  (s.setI (addressOperand value)).endRegular

/-- `LoadRandomAndValToReg(x, value)`: the cursor is read, then flipped, whatever the operands (R122). -/
def execLoadRandomAndValToReg (x : RegIndex) (value : Byte) (s : State) : Result :=
  (s.setV x (s.randomOperand value)).flipRng.endRegular

/-- `AddValToReg(x, value)`: 8-bit wraparound, no carry recorded anywhere (R123). -/
def execAddValToReg (x : RegIndex) (value : Byte) (s : State) : Result :=
  (s.setV x (s.sumOperand x value)).endRegular

/-- `SkipIfRegValEqual(x, value)`: its own advance by 2, when equal, makes the net advance 4 (R124). -/
def execSkipIfRegValEqual (x : RegIndex) (value : Byte) (s : State) : Result :=
  if s.equalsOperand x value then s.advancePc.endRegular else s.endRegular

end Sys2Proof.Machine
end

