-- ==== Sys2Proof/Machine/Dispatch.lean ====
section
/-! DEFINITION. The dispatch of R104: one arm per instruction, each one call of its meaning. -/

namespace Sys2Proof.Machine

/-- Executing a decoded instruction (spec/40_engine_step.md R104). -/
def exec (i : Instr) (s : State) : Host.Outcome State Fault Refusal :=
  match i with
  | .clearScreen => Sys2Proof.Machine.execClearScreen s
  | .ret => Sys2Proof.Machine.execReturn s
  | .sysCall addr => Sys2Proof.Machine.execSysCall addr s
  | .jump addr => Sys2Proof.Machine.execJump addr s
  | .call addr => Sys2Proof.Machine.execCall addr s
  | .skipIfRegValEqual x value => Sys2Proof.Machine.execSkipIfRegValEqual x value s
  | .skipIfRegValNotEqual x value => Sys2Proof.Machine.execSkipIfRegValNotEqual x value s
  | .skipIfRegsEqual x y => Sys2Proof.Machine.execSkipIfRegsEqual x y s
  | .loadValToReg x value => Sys2Proof.Machine.execLoadValToReg x value s
  | .addValToReg x value => Sys2Proof.Machine.execAddValToReg x value s
  | .loadRegToReg x y => Sys2Proof.Machine.execLoadRegToReg x y s
  | .orRegs x y => Sys2Proof.Machine.execOrRegs x y s
  | .andRegs x y => Sys2Proof.Machine.execAndRegs x y s
  | .xorRegs x y => Sys2Proof.Machine.execXorRegs x y s
  | .addRegToReg x y => Sys2Proof.Machine.execAddRegToReg x y s
  | .subRegFromReg x y => Sys2Proof.Machine.execSubRegFromReg x y s
  | .shiftRight x y => Sys2Proof.Machine.execShiftRight x y s
  | .subRegFromRegReversed x y => Sys2Proof.Machine.execSubRegFromRegReversed x y s
  | .shiftLeft x y => Sys2Proof.Machine.execShiftLeft x y s
  | .skipIfRegsNotEqual x y => Sys2Proof.Machine.execSkipIfRegsNotEqual x y s
  | .loadValToI value => Sys2Proof.Machine.execLoadValToI value s
  | .jumpPlusV0 addr => Sys2Proof.Machine.execJumpPlusV0 addr s
  | .loadRandomAndValToReg x value => Sys2Proof.Machine.execLoadRandomAndValToReg x value s
  | .drawSprite x y n => Sys2Proof.Machine.execDrawSprite x y n s
  | .skipIfKeyPressed x => Sys2Proof.Machine.execSkipIfKeyPressed x s
  | .skipIfKeyNotPressed x => Sys2Proof.Machine.execSkipIfKeyNotPressed x s
  | .loadDelayTimerToReg x => Sys2Proof.Machine.execLoadDelayTimerToReg x s
  | .waitKeyToReg x => Sys2Proof.Machine.execWaitKeyToReg x s
  | .loadRegToDelayTimer x => Sys2Proof.Machine.execLoadRegToDelayTimer x s
  | .loadRegToSoundTimer x => Sys2Proof.Machine.execLoadRegToSoundTimer x s
  | .addRegToI x => Sys2Proof.Machine.execAddRegToI x s
  | .loadFontAddrToI x => Sys2Proof.Machine.execLoadFontAddrToI x s
  | .storeBcd x => Sys2Proof.Machine.execStoreBcd x s
  | .storeRegsToMem x => Sys2Proof.Machine.execStoreRegsToMem x s
  | .loadRegsFromMem x => Sys2Proof.Machine.execLoadRegsFromMem x s
  | .unknown word => Sys2Proof.Machine.execUnknown word s

end Sys2Proof.Machine
end

