-- ==== Sys2Proof/Machine/Step.lean ====
section
/-! DEFINITION. The engine step, the one transition of the core (spec/40_engine_step.md R100 to R106). -/

namespace Sys2Proof.Machine

/-- `Step(S)` of R100: a halted core takes no step (R101); otherwise fetch, decode, execute. A fetch beyond memory is
taken as `OutOfBounds(fetch, pc)` (R54, R176). -/
def step (s : State) : Host.Outcome State Fault Refusal :=
  match s.fault with
  | some _ => stayHalted s
  | none =>
    match s.fetch with
    | .error f => raise f s
    | .ok w => exec (decode w) s

/-- `s` with a table row's instruction stored where `step` fetches its next one, so that the very next step runs it. -/
def State.withFetchWord (s : State) (nbits w : Nat) : State := s.placeWord (tableWord nbits w)

end Sys2Proof.Machine
end

