-- ==== Sys2Proof/Machine/HostInterface.lean ====
section
/-! DEFINITION. The host's operations on the core, each atomic and at a step boundary (spec/70_reset_and_hazards.md
R190 to R197), and how a program comes to run: reset, `LoadROM`, then step requests (R192). -/

namespace Sys2Proof.Machine

/-- Where the host is in the boot sequence of R192. It is the host's own place, not a field of the Machine State. -/
inductive Phase where
  /-- Reset has been applied, no ROM is loaded, no step taken. -/
  | fresh
  /-- `LoadROM` has been performed, no step taken. -/
  | loaded
  /-- A step has been requested. -/
  | running
deriving DecidableEq, Repr

/-- The core together with the host's place in the boot sequence. -/
structure Session where
  machine : State
  phase : Phase
deriving DecidableEq, Repr

/-- The operations of R194. -/
inductive HostOp where
  | reset
  | loadRom (rom : List Byte)
  | stepRequest
deriving DecidableEq, Repr

/-- After reset the host may load, then request steps. -/
def Session.start : Session := ⟨State.reset, .fresh⟩

/-- One host operation. Reset is allowed at any step boundary and is complete (R190); `LoadROM` is allowed once per
reset and before the first step, and is refused otherwise (R192, R197); a step request performs one step (R194). -/
def hostApply (op : HostOp) (h : Session) : Host.Outcome Session Fault Refusal :=
  match op with
  | .reset => .next Session.start
  | .loadRom rom =>
    match h.phase with
    | .fresh => .next ⟨h.machine.loadRom rom, .loaded⟩
    | .loaded => .refused .loadNotPermitted
    | .running => .refused .loadNotPermitted
  | .stepRequest =>
    match step h.machine with
    | .next s' => .next ⟨s', .running⟩
    | .fault f => .fault f
    | .refused r => .refused r

/-- A sequence of host operations. -/
def hostRun : List HostOp → Session → Host.Outcome Session Fault Refusal
  | [], h => .next h
  | op :: ops, h =>
    match hostApply op h with
    | .next h' => hostRun ops h'
    | .fault f => .fault f
    | .refused r => .refused r

end Sys2Proof.Machine
end

