-- ==== Sys2Proof/Machine/Output.lean ====
section
/-! DEFINITION. What a step shows the host beside the next state: the presentation event and the optional trace
record (spec/43_draw_sprite.md R136, spec/60_exceptions.md R185, spec/70_reset_and_hazards.md R195). They are outputs
of a run and no part of the Machine State (spec/10_state.md R39), so they are computed from the state a step starts
in. The third output, the fault record, is the field `fault`. -/

namespace Sys2Proof.Machine

/-- One output of the core. -/
inductive Output where
  /-- `Present(fb)`: the framebuffer after a completed draw (R136). -/
  | present (fb : Framebuffer)
  /-- `Trace(d, reg_i', v')`: the decoded instruction and the registers after the step (R185). -/
  | trace (d : Instr) (reg_i : Word) (v : Vector Byte 16)
deriving DecidableEq, Repr

/-- The events of executing `d` from a state `s` to `s'`: none when the step faulted (R176); otherwise one
presentation for a `DrawSprite` and for no other instruction (R136), then the trace record where the host wants
one (R185). -/
def execOutputs (traced : Bool) (d : Instr) (s' : State) : List Output :=
  if s'.fault.isSome then []
  else
    (match d with
      | .drawSprite _ _ _ => [.present s'.display_memory]
      | _ => []) ++
    (if traced then [.trace d s'.reg_i s'.v] else [])

/-- The events of one step from `s` (R100): a halted core emits none (R101), nor does a failed fetch. -/
def stepOutputs (traced : Bool) (s : State) : List Output :=
  match s.fault with
  | some _ => []
  | none =>
    match s.fetch with
    | .error _ => []
    | .ok w =>
      match exec (decode w) s with
      | .next s' => execOutputs traced (decode w) s'
      | .fault _ => []
      | .refused _ => []

/-- The events of a run of `k` steps, in step order (R136, R195). -/
def runOutputs (traced : Bool) : Nat → State → List Output
  | 0, _ => []
  | k + 1, s =>
    stepOutputs traced s ++
    match step s with
    | .next s' => runOutputs traced k s'
    | .fault _ => []
    | .refused _ => []

end Sys2Proof.Machine
end

