-- ==== Sys2Proof/Safety.lean ====
section
/-! DEFINITION. What counts as a safe run, in the terms claims use: the halted core, a run's outcome, the conditions of
a fault-free step, and the invariant of every reachable state (spec/40_engine_step.md R101, R105;
spec/70_reset_and_hazards.md R199; spec/10_state.md R33). -/

namespace Sys2Proof.Machine

/-- A fatal condition has been latched; only reset leaves this (R101). -/
def State.halted (s : State) : Bool := s.fault.isSome

/-- A halted state read as "a fault outcome that is never a final (successful) state" (R101). -/
def State.outcome (s : State) : Result :=
  match s.fault with
  | none => .next s
  | some f => .fault f

/-- The end of a run of `k` steps: normal, or abnormal with the record of the fatal condition (R105). -/
def runOutcome (k : Nat) (s : State) : Result :=
  match Sys2Proof.core.run k s with
  | .next s' => s'.outcome
  | .fault f => .fault f
  | .refused r => .refused r

/-- The `rng` values a run consumes: how many of its `k` steps execute `LoadRandomAndValToReg` (R37). -/
def randomCount : Nat → State → Nat
  | 0, _ => 0
  | k + 1, s =>
    (match s.fault, s.fetch with
      | none, .ok w => (match decode w with | .loadRandomAndValToReg _ _ => 1 | _ => 0)
      | _, _ => 0) +
    match step s with
    | .next s' => randomCount k s'
    | .fault _ => 0
    | .refused _ => 0

/-- R33: what holds of every state reached from reset through a permitted ROM load and steps. The sizes of its item
(g) are in the types of the fields. -/
structure State.Inv (s : State) : Prop where
  /-- Memory is in canonical form. -/
  memory_wf : s.memory.wf = true
  /-- (b) The reserved region holds zeros. -/
  reserved : ∀ a, a < Config.loadAddress → s.memory.read a = 0x00#8
  /-- (c) -/
  reg_i_le : s.reg_i.toNat ≤ 0x0FFF
  /-- (d) -/
  pc_le : s.program_counter.toNat ≤ 0x10FE
  /-- (e) -/
  stack_le : ∀ e ∈ s.stack, e.toNat ≤ 0x0FFE
  /-- (f) -/
  delay_timer_zero : s.delay_timer = 0x00#8
  /-- (f) -/
  sound_timer_zero : s.sound_timer = 0x00#8
  /-- (f) -/
  keyboard_up : ∀ k : Fin 16, s.keyboard[k] = false
  /-- A latched record names the instruction that faulted, where `program_counter` has stayed (R171, R176). -/
  fault_pc : ∀ f, s.fault = some f → f.pc = s.program_counter

/-- What holds of every session after reset: the machine's invariant, and, until the host has loaded a ROM or
requested a step, the entry point in `program_counter` (R191), which is the `pc` a rejected load records (R171). -/
structure Session.Inv (h : Session) : Prop where
  machine : h.machine.Inv
  fresh_pc : h.phase = .fresh → h.machine.program_counter = 0x0200#16

end Sys2Proof.Machine
end

