-- ==== Sys2Proof/WellFormed.lean ====
section
/-! DEFINITION. Which instruction values stand for a word. The field types already keep `x`, `y`, `n` in
0 to 15, `value` in its 8 or 12 bits and `addr` in its 12 bits (spec/30_encoding.md R82); two shapes need a
check, because an earlier row of R77's table owns some of their words. -/

namespace Sys2Proof

/-- The instruction value is the decoding of some word: `SysCall` leaves `00E0` and `00EE` to rows 1 and 2
(R74), and `Unknown` is "only well-formed when `word` matches no earlier row" (R82). -/
def Instr.wellFormed : Instr → Bool
  | .sysCall addr => sysCallAddress addr
  | .unknown word => unclaimedWord word
  | .clearScreen | .ret | .jump _ | .call _ | .skipIfRegValEqual _ _
  | .skipIfRegValNotEqual _ _ | .skipIfRegsEqual _ _ | .loadValToReg _ _ | .addValToReg _ _
  | .loadRegToReg _ _ | .orRegs _ _ | .andRegs _ _ | .xorRegs _ _ | .addRegToReg _ _
  | .subRegFromReg _ _ | .shiftRight _ _ | .subRegFromRegReversed _ _ | .shiftLeft _ _
  | .skipIfRegsNotEqual _ _ | .loadValToI _ | .jumpPlusV0 _ | .loadRandomAndValToReg _ _
  | .drawSprite _ _ _ | .skipIfKeyPressed _ | .skipIfKeyNotPressed _ | .loadDelayTimerToReg _
  | .waitKeyToReg _ | .loadRegToDelayTimer _ | .loadRegToSoundTimer _ | .addRegToI _
  | .loadFontAddrToI _ | .storeBcd _ | .storeRegsToMem _ | .loadRegsFromMem _ => true

end Sys2Proof
end

