-- ==== Sys2Proof/Certificates/Slice0/Obligations.lean ====
section
/-! DEFINITION. The statements for the provers, each formalising or following from rules of spec/. Where a clause
rests on a point the spec itself marks as its own decision or as general knowledge, the docstring names it. -/

open Sys2Proof Sys2Proof.Machine

/-! ### The decoder and the encoder -/

/-- Words written out from R77's patterns, at least one of each of the sixteen families, decode to the shapes they
stand for (vectors V10 to V19b and V39). The patterns are the spec's own, from general knowledge (D2, D3; log entries 2
and 3). -/
def Obligations.WrittenWordsDecode : Prop :=
  decode 0x00E0#16 = .clearScreen ∧ decode 0x00EE#16 = .ret ∧ decode 0x00E1#16 = .sysCall 0x0E1#12 ∧
  decode 0x1ABC#16 = .jump 0xABC#12 ∧ decode 0x2ABC#16 = .call 0xABC#12 ∧ decode 0xBABC#16 = .jumpPlusV0 0xABC#12 ∧
  decode 0x3A7F#16 = .skipIfRegValEqual 10 0x7F#8 ∧ decode 0x6A7F#16 = .loadValToReg 10 0x7F#8 ∧
  decode 0x7A7F#16 = .addValToReg 10 0x7F#8 ∧ decode 0x4A7F#16 = .skipIfRegValNotEqual 10 0x7F#8 ∧
  decode 0x9120#16 = .skipIfRegsNotEqual 1 2 ∧ decode 0xCA7F#16 = .loadRandomAndValToReg 10 0x7F#8 ∧
  decode 0xA7F3#16 = .loadValToI 0x7F3#12 ∧ decode 0xD12F#16 = .drawSprite 1 2 15 ∧
  decode 0x5121#16 = .unknown 0x5121#16 ∧ decode 0x812E#16 = .shiftLeft 1 2 ∧ decode 0xE1A1#16 = .skipIfKeyNotPressed 1 ∧
  decode 0xF165#16 = .loadRegsFromMem 1

/-- Decoding the encoding of any well-formed instruction gives the instruction back, every operand at every value. -/
def Obligations.DecodeOfEncodeIsIdentity : Prop :=
  ∀ i : Instr, i.wellFormed = true → decode (encode i) = i

/-- Every word decodes to a well-formed instruction whose encoding is that word: no bit of a word is dropped, and no
two words share a meaning. -/
def Obligations.EncodeOfDecodeIsIdentity : Prop :=
  ∀ w : Word, (decode w).wellFormed = true ∧ encode (decode w) = w

/-- R74's reading of R77's table: the decoder, written by families, answers the first row in priority order whose
pattern matches; the only rows that overlap before the fallback are `00E0`, `00EE` and `0nnn`. The patterns are the
spec's own (D2; log entry 2). -/
def Obligations.DecoderIsFirstMatchOfTable : Prop :=
  (∀ w : Word, firstMatch w = some (decode w)) ∧
  decodeTable.map Row.priority = (List.range 36).map (· + 1) ∧
  (∀ r₁ ∈ decodeTable, ∀ r₂ ∈ decodeTable, ∀ w : Word, r₁.priority < r₂.priority → r₂.priority ≠ 36 →
    r₁.hits w = true → r₂.hits w = true → (r₁.priority = 1 ∨ r₁.priority = 2) ∧ r₂.priority = 3)

/-- R78, R165: a word decodes to `Unknown`, carried whole, exactly when it lies in one of the gaps of families 5, 8, 9,
E and F, and exactly when none of rows 1 to 35 matches it. The gaps are the spec's own (D2, D5; log entry 2). -/
def Obligations.UnknownIsExactlyTheGaps : Prop :=
  ∀ w : Word,
    ((decode w).shapeClass = .unknown ↔
      (nibble1 w = 0x5 ∧ nibble4 w ≠ 0) ∨ (nibble1 w = 0x9 ∧ nibble4 w ≠ 0) ∨
      (nibble1 w = 0x8 ∧ nibble4 w ∈ [0x8, 0x9, 0xA, 0xB, 0xC, 0xD, 0xF]) ∨
      (nibble1 w = 0xE ∧ (fieldValue w).toNat ∉ [0x9E, 0xA1]) ∨
      (nibble1 w = 0xF ∧ (fieldValue w).toNat ∉ [0x07, 0x0A, 0x15, 0x18, 0x1E, 0x29, 0x33, 0x55, 0x65])) ∧
    ((decode w).shapeClass = .unknown → decode w = .unknown w) ∧
    ((decode w).shapeClass = .unknown ↔ ∀ r ∈ decodeTable, r.hits w = true → r.priority = 36)

/-! ### The step -/

/-- R100, R54: a running core whose two bytes at `program_counter` lie in memory executes the instruction they decode
to; in particular the bytes of a well-formed instruction, most significant first (D1, log entry 1), run that
instruction. The core's step adds nothing around it. -/
def Obligations.StepRunsTheDecodedInstruction : Prop :=
  ∀ (s : State) (hi lo : Byte), s.fault = none → s.program_counter.toNat + 1 ≤ 4095 →
    s.memory.read s.program_counter.toNat = hi → s.memory.read (s.program_counter.toNat + 1) = lo →
    step s = exec (decode (wordOfBytes hi lo)) s ∧
    ∀ i : Instr, i.wellFormed = true → bytesOfWord (encode i) = [hi, lo] → step s = exec i s

/-- The state the host's table check builds runs exactly the word it was given, at every state whose memory is in
canonical form (log entry 12). -/
def Obligations.PlacedWordIsTheNextInstruction : Prop :=
  ∀ (s : State) (w : Word), s.memory.wf = true →
    step (s.withFetchWord 16 w.toNat) = exec (decode w) (s.withFetchWord 16 w.toNat)

/-- R101 (D11; log entry 5): while `fault` is set, a step request leaves the whole state unchanged and emits nothing. -/
def Obligations.HaltedCoreTakesNoStep : Prop :=
  ∀ s : State, s.fault ≠ none → step s = .next s ∧ ∀ traced, stepOutputs traced s = []

/-- R101, R180, R190 (D11, D25; log entries 5 and 18): no host operation but `Reset` leaves the halted condition, and
`Reset` restores the reset state from any state. -/
def Obligations.OnlyResetLeavesTheHalt : Prop :=
  (∀ (op : HostOp) (h h' : Session), h.machine.fault ≠ none → op ≠ .reset → hostApply op h = .next h' →
    h'.machine.fault ≠ none) ∧
  (∀ h : Session, hostApply .reset h = .next ⟨State.reset, .fresh⟩)

/-- R106: every step, and every instruction, answers a next state; nothing is refused and nothing stops the machine. -/
def Obligations.EveryStepAnswersANextState : Prop :=
  (∀ s : State, ∃ t, step s = .next t) ∧ (∀ (i : Instr) (s : State), ∃ t, exec i s = .next t)

/-- R172, R173, R174: the three fatal conditions of a step arise exactly when the rules say, at most one in a step, and
no other arises; `program_counter` is not changed. The code numbers are the spec's own (D12; log entry 6), and so are
the range a sprite's rows are held against (D14; log entry 8) and that a faulting step leaves `program_counter` as it
was (R176, D11; log entry 5). -/
def Obligations.FatalConditionsAriseExactlyWhenStated : Prop :=
  ∀ s : State, s.fault = none → ∃ t, step s = .next t ∧
    ((∃ f, t.fault = some f ∧ f.code = 1) ↔ ∃ w, s.fetch = .ok w ∧ decode w = .ret ∧ s.stack.length = 0) ∧
    ((∃ f, t.fault = some f ∧ f.code = 2) ↔ s.program_counter.toNat + 1 > 4095) ∧
    ((∃ f, t.fault = some f ∧ f.code = 3) ↔ ∃ w x y n, s.fetch = .ok w ∧ decode w = .drawSprite x y n ∧
      n.val ≥ 1 ∧ s.reg_i.toNat + n.val - 1 > 4095) ∧
    (∀ f, t.fault = some f → f.code ∈ [1, 2, 3] ∧ t.program_counter = s.program_counter)

/-- R176, R171 (D11, D12; log entries 5 and 6): a faulting step changes nothing but the latch, which receives a record
naming the faulting instruction's address; from then on the core is halted. -/
def Obligations.FaultingStepChangesOnlyTheLatch : Prop :=
  ∀ (s t : State) (f : Fault), s.fault = none → step s = .next t → t.fault = some f →
    t = { s with fault := some f } ∧ f.pc = s.program_counter ∧ step t = .next t

/-- R171, R176 (D12; log entry 6): the code, kind, pc and info of each record, and which record each of the four fatal
conditions latches, an oversized ROM at its load included (D17; log entry 11). That nothing else changes is D11 (log
entry 5), and that a sprite's whole range is checked first is D14 (log entry 8). -/
def Obligations.FaultRecordsHoldTheirFields : Prop :=
  (∀ s : State, s.stack = [] →
    exec .ret s = .next { s with fault := some (.stackUnderflow s.program_counter) }) ∧
  (∀ s : State, s.fault = none → s.program_counter.toNat ≥ 0x0FFF →
    step s = .next { s with fault := some (.outOfBoundsFetch s.program_counter) }) ∧
  (∀ (s : State) (x y : RegIndex) (n : RowCount), n.val ≥ 1 → s.reg_i.toNat + n.val - 1 > 4095 →
    exec (.drawSprite x y n) s = .next { s with fault := some (.outOfBoundsSprite s.program_counter s.reg_i) }) ∧
  (∀ (s : State) (rom : List Byte), rom.length > 3584 →
    s.loadRom rom = { s with fault := some (.resourceOverflow rom.length) }) ∧
  (∀ (pc reg_i : Word) (length : Nat),
    ((Fault.stackUnderflow pc).code = 1 ∧ (Fault.stackUnderflow pc).kind = none ∧
      (Fault.stackUnderflow pc).pc = pc ∧ (Fault.stackUnderflow pc).info = none) ∧
    ((Fault.outOfBoundsFetch pc).code = 2 ∧ (Fault.outOfBoundsFetch pc).kind = some .fetch ∧
      (Fault.outOfBoundsFetch pc).pc = pc ∧ (Fault.outOfBoundsFetch pc).info = some pc.toNat) ∧
    ((Fault.outOfBoundsSprite pc reg_i).code = 3 ∧ (Fault.outOfBoundsSprite pc reg_i).kind = some .sprite ∧
      (Fault.outOfBoundsSprite pc reg_i).pc = pc ∧ (Fault.outOfBoundsSprite pc reg_i).info = some reg_i.toNat) ∧
    ((Fault.resourceOverflow length).code = 4 ∧ (Fault.resourceOverflow length).kind = none ∧
      (Fault.resourceOverflow length).pc = 0x0200#16 ∧ (Fault.resourceOverflow length).info = some length))

/-- R103: after a FlowControl instruction the next fetch address is its target verbatim; after every other instruction
it is 2 further on, or 4 where `SkipIfRegValEqual` finds its register equal. Stated where the addition cannot wrap,
which is wherever an instruction can be fetched. -/
def Obligations.ProgramCounterFollowsThePolicy : Prop :=
  ∀ (i : Instr) (s t : State), s.fault = none → exec i s = .next t → t.fault = none →
    (∀ addr, i = .jump addr → t.program_counter = addr.setWidth 16) ∧
    (∀ addr, i = .jumpPlusV0 addr → t.program_counter = addr.setWidth 16 + (s.getV 0).setWidth 16) ∧
    (∀ addr, i = .call addr → t.program_counter = addr.setWidth 16) ∧
    (i = .ret → s.stack.getLast? = some t.program_counter) ∧
    (i.shapeClass ≠ .flowControl → s.program_counter.toNat ≤ 0x0FFE →
      (∀ x value, i = .skipIfRegValEqual x value → s.getV x = value →
        t.program_counter.toNat = s.program_counter.toNat + 4) ∧
      ((∀ x value, i = .skipIfRegValEqual x value → s.getV x ≠ value) →
        t.program_counter.toNat = s.program_counter.toNat + 2))

/-! ### The one writer of each field -/

/-- R56: no instruction and no step changes a byte of memory. -/
def Obligations.NoStepChangesMemory : Prop :=
  (∀ (i : Instr) (s t : State), exec i s = .next t →
    t.memory = s.memory ∧ ∀ a, t.memory.read a = s.memory.read a) ∧
  (∀ (s t : State), step s = .next t → t.memory = s.memory ∧ ∀ a, t.memory.read a = s.memory.read a)

/-- R22: a `v` register changes only as the destination of `LoadValToReg`, `AddValToReg` or `LoadRandomAndValToReg`, or
as VF in `DrawSprite`. -/
def Obligations.RegistersChangeOnlyAsDestinations : Prop :=
  ∀ (i : Instr) (s t : State) (k : RegIndex), exec i s = .next t → t.getV k ≠ s.getV k →
    (∃ value, i = .loadValToReg k value) ∨ (∃ value, i = .addValToReg k value) ∨
    (∃ value, i = .loadRandomAndValToReg k value) ∨ (k = 15 ∧ ∃ x y n, i = .drawSprite x y n)

/-- R28: `reg_i` is written only by `LoadValToI`, with the 12-bit field zero-extended; it is read only by `DrawSprite`,
so no other instruction behaves differently for another value of it; after reset, a ROM load and any number of steps
it is at most 0xFFF. -/
def Obligations.IndexRegisterIsOnlyLoaded : Prop :=
  (∀ (i : Instr) (s t : State), exec i s = .next t →
    (∀ value, i = .loadValToI value → t.reg_i = value.setWidth 16) ∧
    ((∀ value, i ≠ .loadValToI value) → t.reg_i = s.reg_i) ∧
    ((∀ x y n, i ≠ .drawSprite x y n) → ∀ a : Word, ∃ t', exec i { s with reg_i := a } = .next t' ∧
      { t' with reg_i := t.reg_i } = t)) ∧
  (∀ (rom : List Byte) (k : Nat) (t : State), Sys2Proof.core.run k (State.reset.loadRom rom) = .next t →
    t.reg_i.toNat ≤ 0x0FFF)

/-- R31, R34, R183: no step changes a timer or a key, and no step behaves differently for other timer or key values
(that no input drives them is the spec's D19; log entry 16). -/
def Obligations.TimersAndKeysAreInert : Prop :=
  ∀ (s t : State), step s = .next t →
    t.delay_timer = s.delay_timer ∧ t.sound_timer = s.sound_timer ∧ t.keyboard = s.keyboard ∧
    ∀ (d e : Byte) (k : Vector Bool 16),
      step { s with delay_timer := d, sound_timer := e, keyboard := k } =
        .next { t with delay_timer := d, sound_timer := e, keyboard := k }

/-- R37: the cursor is read and flipped by `LoadRandomAndValToReg` only, once per execution; over
a run of `k` steps from any state it changes exactly when an odd number of those steps executed that instruction; so
from reset, after a ROM load, the j-th execution sees `false` when j is odd and `true` when j is even. -/
def Obligations.RandomCursorCountsItsUses : Prop :=
  (∀ (i : Instr) (s t : State), exec i s = .next t →
    (∀ x value, i = .loadRandomAndValToReg x value → t.rng = !s.rng) ∧
    ((∀ x value, i ≠ .loadRandomAndValToReg x value) → t.rng = s.rng ∧
      ∀ c : Bool, exec i { s with rng := c } = .next { t with rng := c })) ∧
  (∀ (s t : State) (k : Nat), Sys2Proof.core.run k s = .next t →
    t.rng = (s.rng ^^ decide (randomCount k s % 2 = 1))) ∧
  (∀ (rom : List Byte) (k : Nat) (t : State), Sys2Proof.core.run k (State.reset.loadRom rom) = .next t →
    t.rng = decide (randomCount k (State.reset.loadRom rom) % 2 = 1))

/-- R29 (unbounded by D15; log entry 13): the stack grows only by `Call`, by its own address, and shrinks only by
`Return`, which takes the most recently pushed entry. -/
def Obligations.StackChangesOnlyByCallAndReturn : Prop :=
  ∀ (i : Instr) (s t : State), exec i s = .next t →
    t.stack = s.stack ∨
    (∃ addr, i = .call addr ∧ t.stack = s.stack ++ [s.program_counter]) ∨
    (i = .ret ∧ s.stack = t.stack ++ [t.program_counter])

/-- R36: only `DrawSprite` changes the display, and a program cannot read it: with another display, every instruction
but `DrawSprite` does the same, and `DrawSprite` differs in the display and in VF alone. -/
def Obligations.DisplayIsReachedOnlyByDrawSprite : Prop :=
  ∀ (i : Instr) (s t : State) (fb : Framebuffer), exec i s = .next t →
    ((∀ x y n, i ≠ .drawSprite x y n) → t.display_memory = s.display_memory ∧
      exec i { s with display_memory := fb } = .next { t with display_memory := fb }) ∧
    ∃ t', exec i { s with display_memory := fb } = .next t' ∧ t'.memory = t.memory ∧
      t'.program_counter = t.program_counter ∧ t'.reg_i = t.reg_i ∧ t'.stack = t.stack ∧ t'.rng = t.rng ∧
      t'.delay_timer = t.delay_timer ∧ t'.sound_timer = t.sound_timer ∧ t'.keyboard = t.keyboard ∧
      t'.fault = t.fault ∧ ∀ k : RegIndex, k ≠ 15 → t'.getV k = t.getV k

/-! ### FlowControl instructions

Each rule's `Encoding` clause is marked by the spec as general knowledge (D2; log entry 2) and is no part of what the
statement formalises; `WrittenWordsDecode` and `DecoderIsFirstMatchOfTable` state it. -/

/-- R110: `Jump` sets `program_counter` to its field exactly and changes nothing else; a self-jump is a fixed point of
the step; after `Jump` to 0xFFF the NEXT step faults at the fetch, and that this fault changes nothing but the latch is
the spec's own (R176, D11; log entry 5). -/
def Obligations.JumpSetsTheProgramCounter : Prop :=
  ∀ (addr : Address) (s : State),
    exec (.jump addr) s = .next { s with program_counter := addr.setWidth 16 } ∧
    (s.fault = none → s.fetch = .ok (encode (.jump addr)) → s.program_counter = addr.setWidth 16 → step s = .next s) ∧
    (s.fault = none → addr = 0xFFF#12 → step { s with program_counter := addr.setWidth 16 } =
      .next { s with program_counter := 0x0FFF#16, fault := some (.outOfBoundsFetch 0x0FFF#16) })

/-- R111: `JumpPlusV0` sets `program_counter` to the sum of its field and `v[0]`, modulo 2^16, and changes nothing else;
the sum is at most 0x10FE, so it never wraps, and it is not reduced modulo 4096: from 0x0FFF on, the next fetch
faults, and that this fault changes nothing but the latch is the spec's own (R176, D11; log entry 5). -/
def Obligations.JumpPlusV0AddsTheRegister : Prop :=
  ∀ (addr : Address) (s : State),
    exec (.jumpPlusV0 addr) s =
      .next { s with program_counter := BitVec.ofNat 16 ((addr.toNat + (s.getV 0).toNat) % 2 ^ 16) } ∧
    addr.toNat + (s.getV 0).toNat ≤ 0x10FE ∧
    (s.fault = none → addr.toNat + (s.getV 0).toNat ≥ 0x0FFF → ∀ t, exec (.jumpPlusV0 addr) s = .next t →
      t.program_counter.toNat = addr.toNat + (s.getV 0).toNat ∧
      step t = .next { t with fault := some (.outOfBoundsFetch t.program_counter) })

/-- R112: `Call` pushes the address of the `Call` itself, NOT of its successor, and goes to its target; it cannot
fault, whatever the length of the stack. -/
def Obligations.CallPushesItsOwnAddress : Prop :=
  ∀ (addr : Address) (s : State),
    exec (.call addr) s =
      .next { s with stack := s.stack ++ [s.program_counter], program_counter := addr.setWidth 16 }

/-- R113: `Return` pops the most recently pushed entry into `program_counter`, with no +2; with an empty stack it takes
`StackUnderflow` and changes nothing else; and `Call` then `Return` restores the state the `Call` started from, so
control is back at the `Call`. -/
def Obligations.ReturnResumesAtThePoppedAddress : Prop :=
  (∀ (s : State) (l : List Word) (top : Word), s.stack = l ++ [top] →
    exec .ret s = .next { s with stack := l, program_counter := top }) ∧
  (∀ s : State, s.stack = [] →
    exec .ret s = .next { s with fault := some (.stackUnderflow s.program_counter) }) ∧
  (∀ (addr : Address) (s : State), ∃ t, exec (.call addr) s = .next t ∧ exec .ret t = .next s)

/-! ### Regular instructions with effects

As above, the `Encoding` clauses of R120 to R124 are the spec's general knowledge (D2; log entry 2); only R119's is
from the source and stands in its statement. -/

/-- R119: every other word whose first nibble is 0 is `SysCall`, which advances `program_counter` by 2 and does nothing
else, whatever its field. -/
def Obligations.SysCallDoesNothing : Prop :=
  (∀ (addr : Address) (s : State),
    exec (.sysCall addr) s = .next { s with program_counter := s.program_counter + 2#16 }) ∧
  ∀ w : Word, nibble1 w = 0x0 → w ≠ 0x00E0#16 → w ≠ 0x00EE#16 → decode w = .sysCall (fieldAddr w)

/-- R120: `LoadValToReg` writes its immediate to `v[x]`, every `x` being legal, and advances by 2. -/
def Obligations.LoadValToRegWritesTheImmediate : Prop :=
  ∀ (x : RegIndex) (value : Byte) (s : State), ∃ t, exec (.loadValToReg x value) s = .next t ∧
    t = { s with v := s.v.set x value, program_counter := s.program_counter + 2#16 } ∧
    t.getV x = value ∧ ∀ k, k ≠ x → t.getV k = s.getV k

/-- R121: `LoadValToI` writes its 12-bit field, zero-extended, to `reg_i`, and advances by 2. That the field has 12
bits is the spec's own reading (D3; log entry 3). -/
def Obligations.LoadValToIWritesTheIndexRegister : Prop :=
  ∀ (value : Address) (s : State), ∃ t, exec (.loadValToI value) s = .next t ∧
    t = { s with reg_i := value.setWidth 16, program_counter := s.program_counter + 2#16 } ∧
    t.reg_i.toNat = value.toNat ∧ t.reg_i.toNat < 4096

/-- R122: `LoadRandomAndValToReg` writes `b2n(rng) & value`, which is 0 or bit 0 of the mask, then flips `rng` whatever
the operands, and advances by 2. -/
def Obligations.LoadRandomMasksTheCursor : Prop :=
  ∀ (x : RegIndex) (value : Byte) (s : State), ∃ t, exec (.loadRandomAndValToReg x value) s = .next t ∧
    t = { s with v := s.v.set x (if s.rng then value &&& 0x01#8 else 0x00#8), rng := !s.rng,
                 program_counter := s.program_counter + 2#16 } ∧
    (t.getV x = 0x00#8 ∨ (t.getV x = 0x01#8 ∧ s.rng = true ∧ value.getLsbD 0 = true)) ∧
    ∀ k, k ≠ x → t.getV k = s.getV k

/-- R123: `AddValToReg` writes the sum modulo 256 to `v[x]` and advances by 2; it records no carry, and VF is unchanged
unless it is the destination. -/
def Obligations.AddValToRegWraps : Prop :=
  ∀ (x : RegIndex) (value : Byte) (s : State), ∃ t, exec (.addValToReg x value) s = .next t ∧
    t = { s with v := s.v.set x (s.getV x + value), program_counter := s.program_counter + 2#16 } ∧
    (t.getV x).toNat = ((s.getV x).toNat + value.toNat) % 256 ∧ ∀ k, k ≠ x → t.getV k = s.getV k

/-- R124: `SkipIfRegValEqual` advances by 4 when `v[x]` equals the immediate and by 2 otherwise, and changes nothing
else. -/
def Obligations.SkipIfRegValEqualSkipsOneWord : Prop :=
  ∀ (x : RegIndex) (value : Byte) (s : State),
    (s.getV x = value →
      exec (.skipIfRegValEqual x value) s = .next { s with program_counter := s.program_counter + 4#16 }) ∧
    (s.getV x ≠ value →
      exec (.skipIfRegValEqual x value) s = .next { s with program_counter := s.program_counter + 2#16 })

/-! ### DrawSprite and the compositor -/

/-- R130, R131, R134, R137 (D6, D8, D14; log entries 4 and 8): where its rows lie inside memory, `DrawSprite` completes
for every `x`, `y`, `n` (VF as a coordinate included, read before it is written): the compositor's framebuffer, its
flag in VF, an advance by 2, and nothing else; elsewhere it takes `OutOfBounds(sprite, reg_i)` with nothing drawn. -/
def Obligations.DrawSpriteCompletesInsideMemory : Prop :=
  ∀ (x y : RegIndex) (n : RowCount) (s : State),
    (n.val = 0 ∨ s.reg_i.toNat + n.val - 1 ≤ 4095 →
      let c := composite s.display_memory (s.memory.readBytes s.reg_i.toNat n.val) (s.getV x) (s.getV y)
      exec (.drawSprite x y n) s = .next { s with display_memory := c.fb,
                                                  v := s.v.set 15 (if c.collision then 0x01#8 else 0x00#8),
                                                  program_counter := s.program_counter + 2#16 }) ∧
    (¬ (n.val = 0 ∨ s.reg_i.toNat + n.val - 1 ≤ 4095) →
      exec (.drawSprite x y n) s = .next { s with fault := some (.outOfBoundsSprite s.program_counter s.reg_i) })

/-- R132, R133 in closed form (VF's byte is D7, the coordinates D6; log entry 4): after a completed draw the pixel at
column `(v[x] + xx) mod 64`, row `(v[y] + yy) mod 32` is XORed with bit `7 - xx` of the byte at `reg_i + yy`, for every
`xx < 8` and `yy < n`; every other pixel is unchanged; and VF is 1 exactly when one of these XORs found its pixel lit
and its sprite pixel set, and 0 otherwise. -/
def Obligations.DrawSpriteXorsEveryPixelOnce : Prop :=
  ∀ (x y : RegIndex) (n : RowCount) (s : State), n.val = 0 ∨ s.reg_i.toNat + n.val - 1 ≤ 4095 →
    ∃ t, exec (.drawSprite x y n) s = .next t ∧
      (∀ (p : PixelIndex) (xx yy : Nat), xx < 8 → yy < n.val →
        p.val = ((s.getV x).toNat + xx) % 64 + 64 * (((s.getV y).toNat + yy) % 32) →
        t.display_memory.get p =
          (s.display_memory.get p ^^ (s.memory.read (s.reg_i.toNat + yy)).getLsbD (7 - xx))) ∧
      (∀ p : PixelIndex, (∀ xx yy : Nat, xx < 8 → yy < n.val →
          p.val ≠ ((s.getV x).toNat + xx) % 64 + 64 * (((s.getV y).toNat + yy) % 32)) →
        t.display_memory.get p = s.display_memory.get p) ∧
      (t.getV 15 = 0x01#8 ↔ ∃ (p : PixelIndex) (xx yy : Nat), xx < 8 ∧ yy < n.val ∧
        p.val = ((s.getV x).toNat + xx) % 64 + 64 * (((s.getV y).toNat + yy) % 32) ∧
        s.display_memory.get p = true ∧ (s.memory.read (s.reg_i.toNat + yy)).getLsbD (7 - xx) = true) ∧
      (t.getV 15 = 0x01#8 ∨ t.getV 15 = 0x00#8)

/-- R135 (d): drawing the same sprite twice at the same place restores the framebuffer, and if the sprite has a set
pixel, at least one of the two draws reports a collision. The place is the same where neither coordinate register is
VF, which the first draw overwrites. -/
def Obligations.DrawingTwiceRestoresTheDisplay : Prop :=
  ∀ (x y : RegIndex) (n : RowCount) (s t u : State), x ≠ 15 → y ≠ 15 →
    n.val = 0 ∨ s.reg_i.toNat + n.val - 1 ≤ 4095 →
    exec (.drawSprite x y n) s = .next t → exec (.drawSprite x y n) t = .next u →
    u.display_memory = s.display_memory ∧
    ((∃ xx yy : Nat, xx < 8 ∧ yy < n.val ∧ (s.memory.read (s.reg_i.toNat + yy)).getLsbD (7 - xx) = true) →
      t.getV 15 = 0x01#8 ∨ u.getV 15 = 0x01#8)

/-- R135 (a) (D14, D16; log entry 8): a draw of no rows reads nothing and cannot fault, whatever `reg_i`; it clears VF,
changes no pixel and emits one presentation event. -/
def Obligations.DrawOfNoRowsClearsVF : Prop :=
  ∀ (x y : RegIndex) (s : State),
    exec (.drawSprite x y 0) s =
      .next { s with v := s.v.set 15 0x00#8, program_counter := s.program_counter + 2#16 } ∧
    ∀ t, exec (.drawSprite x y 0) s = .next t → t.fault = none →
      execOutputs false (.drawSprite x y 0) t = [.present s.display_memory]

/-- R136, R185, R176 (D16, D21; log entry 10): a completed `DrawSprite` step emits exactly one presentation, of the
framebuffer after the draw; no other step emits one, a faulting step emits nothing at all; the trace record, where
wanted, comes once per completed step with the decoded instruction and the registers after it. -/
def Obligations.OutputsOfAStep : Prop :=
  ∀ (s t : State), s.fault = none → step s = .next t →
    (t.fault ≠ none → ∀ traced, stepOutputs traced s = []) ∧
    (t.fault = none → ∃ w, s.fetch = .ok w ∧
      ((∃ x y n, decode w = .drawSprite x y n) → stepOutputs false s = [.present t.display_memory]) ∧
      ((∀ x y n, decode w ≠ .drawSprite x y n) → stepOutputs false s = []) ∧
      stepOutputs true s = stepOutputs false s ++ [.trace (decode w) t.reg_i t.v])

/-! ### The no-op shapes -/

/-- R140: each of the no-op shapes, and `SysCall` and `Unknown`, completes by advancing `program_counter` by 2 and
changes nothing else, whatever its operands and whatever the state; and none of them emits a presentation. -/
def Obligations.NoOpShapesOnlyAdvance : Prop :=
  ∀ (s : State) (x y : RegIndex) (value : Byte) (addr : Address) (word : Word),
    ∃ t, t = { s with program_counter := s.program_counter + 2#16 } ∧
    (∀ i : Instr, i.effective = false → execOutputs false i t = []) ∧
    exec .clearScreen s = .next t ∧ exec (.sysCall addr) s = .next t ∧
    exec (.skipIfRegValNotEqual x value) s = .next t ∧ exec (.skipIfRegsEqual x y) s = .next t ∧
    exec (.loadRegToReg x y) s = .next t ∧ exec (.orRegs x y) s = .next t ∧ exec (.andRegs x y) s = .next t ∧
    exec (.xorRegs x y) s = .next t ∧ exec (.addRegToReg x y) s = .next t ∧ exec (.subRegFromReg x y) s = .next t ∧
    exec (.shiftRight x y) s = .next t ∧ exec (.subRegFromRegReversed x y) s = .next t ∧
    exec (.shiftLeft x y) s = .next t ∧ exec (.skipIfRegsNotEqual x y) s = .next t ∧
    exec (.skipIfKeyPressed x) s = .next t ∧ exec (.skipIfKeyNotPressed x) s = .next t ∧
    exec (.loadDelayTimerToReg x) s = .next t ∧ exec (.waitKeyToReg x) s = .next t ∧
    exec (.loadRegToDelayTimer x) s = .next t ∧ exec (.loadRegToSoundTimer x) s = .next t ∧
    exec (.addRegToI x) s = .next t ∧ exec (.loadFontAddrToI x) s = .next t ∧ exec (.storeBcd x) s = .next t ∧
    exec (.storeRegsToMem x) s = .next t ∧ exec (.loadRegsFromMem x) s = .next t ∧ exec (.unknown word) s = .next t

/-- R80, R81 (patterns of D2; log entry 2): a fetched word other than `00EE` and the nine families 1, 2, 3, 6, 7, A, B,
C, D has no effect but the advance by 2, however it is classified: no encoding is illegal and none traps. -/
def Obligations.OnlyTenPatternsHaveAnEffect : Prop :=
  ∀ (s : State) (w : Word), s.fault = none → s.fetch = .ok w → w ≠ 0x00EE#16 →
    nibble1 w ∉ [0x1, 0x2, 0x3, 0x6, 0x7, 0xA, 0xB, 0xC, 0xD] →
    step s = .next { s with program_counter := s.program_counter + 2#16 }

/-! ### Reset, ROM load and the host -/

/-- R35: the value of every field after reset. -/
def Obligations.ResetLeavesTheStatedValues : Prop :=
  (∀ a, State.reset.memory.read a = 0x00#8) ∧ State.reset.program_counter = 0x0200#16 ∧
  (∀ i : RegIndex, State.reset.getV i = 0x00#8) ∧ State.reset.reg_i = 0x0000#16 ∧ State.reset.stack = [] ∧
  State.reset.delay_timer = 0x00#8 ∧ State.reset.sound_timer = 0x00#8 ∧
  (∀ k : Fin 16, State.reset.keyboard[k] = false) ∧ (∀ p : PixelIndex, State.reset.display_memory.get p = false) ∧
  State.reset.rng = false ∧ State.reset.fault = none

/-- R193, R175 (D17; log entry 11): a ROM of at most 3584 bytes is copied verbatim to 512 upwards, every other byte and
every other field unchanged; a longer one leaves memory unchanged and latches `ResourceOverflow` with its length. -/
def Obligations.RomLoadCopiesOrIsRejected : Prop :=
  ∀ (s : State) (rom : List Byte), s.memory.wf = true →
    (rom.length ≤ 3584 → ∃ m : Memory, s.loadRom rom = { s with memory := m } ∧ m.wf = true ∧
      (∀ i, i < rom.length → rom[i]? = some (m.read (512 + i))) ∧
      (∀ a, a < 512 ∨ 512 + rom.length ≤ a → m.read a = s.memory.read a)) ∧
    (rom.length > 3584 → s.loadRom rom = { s with fault := some (.resourceOverflow rom.length) })

/-- R192, R194, R197 (D23; log entry 11): reset at any step boundary; a load once per reset and before the first step,
and refused otherwise; a step request performs one step and closes the door to a load. -/
def Obligations.HostOperationsFollowTheBootOrder : Prop :=
  ∀ (h : Session) (rom : List Byte),
    hostApply .reset h = .next ⟨State.reset, .fresh⟩ ∧
    (h.phase = .fresh → hostApply (.loadRom rom) h = .next ⟨h.machine.loadRom rom, .loaded⟩) ∧
    (h.phase ≠ .fresh → hostApply (.loadRom rom) h = .refused .loadNotPermitted) ∧
    ∃ t, step h.machine = .next t ∧ hostApply .stepRequest h = .next ⟨t, .running⟩

/-- R82, R193, R57 (byte order D1; log entry 1): a program of well-formed instructions, assembled and loaded into the
reset core, is fetched back and decoded instruction by instruction, from 512 upwards. -/
def Obligations.AssembledProgramIsFetchedBack : Prop :=
  ∀ (p : List Instr), (∀ i ∈ p, i.wellFormed = true) → 2 * p.length ≤ 3584 →
    ∀ (k : Nat) (i : Instr), p[k]? = some i →
      ∃ w, ({ State.reset.loadRom (assemble (p.map .instruction)) with
                program_counter := BitVec.ofNat 16 (512 + 2 * k) } : State).fetch = .ok w ∧ decode w = i

/-! ### Memory reads -/

/-- R53, R55, R57 (D13, D1; log entries 1 and 8): a read that touches an address above 4095 is `OutOfBounds` of its
kind; any other returns the bytes in place, at even and odd addresses alike, the lower address in bits 15:8 of a word. -/
def Obligations.MemReadChecksTheBounds : Prop :=
  ∀ (s : State) (kind : AccessKind) (a : Nat),
    (a + 2 - 1 > 4095 → s.memRead2 kind a = .error (s.outOfBounds kind)) ∧
    (a + 2 - 1 ≤ 4095 → ∃ w, s.memRead2 kind a = .ok w ∧
      w.toNat = (s.memory.read a).toNat * 256 + (s.memory.read (a + 1)).toNat) ∧
    (∀ n, n ≥ 1 → a + n - 1 > 4095 → s.memReadBytes kind a n = .error (s.outOfBounds kind)) ∧
    (∀ n, n = 0 ∨ a + n - 1 ≤ 4095 → ∃ bs, s.memReadBytes kind a n = .ok bs ∧ bs.length = n ∧
      ∀ k, k < n → bs[k]? = some (s.memory.read (a + k)))

/-! ### Invariants and runs -/

/-- The reset state meets the invariant of R33. -/
def Obligations.ResetMeetsTheInvariant : Prop := State.reset.Inv

/-- R33: every step keeps the invariant: memory canonical and its reserved region zero, `reg_i <= 0x0FFF`,
`program_counter <= 0x10FE`, every stack entry `<= 0x0FFE`, timers zero, keys up, a latched record naming the
instruction that faulted. -/
def Obligations.StepKeepsTheInvariant : Prop :=
  ∀ s t : State, s.Inv → step s = .next t → t.Inv

/-- R33, R192 (D17, D23, D25; log entries 11 and 18): every host operation keeps the invariant of a session, which is
the machine's own together with the entry point in `program_counter` until the host has loaded or stepped; so whatever
the host does after reset, in whatever order, the machine meets its invariant. -/
def Obligations.HostCannotBreakTheInvariant : Prop :=
  (∀ (op : HostOp) (h h' : Session), h.Inv → hostApply op h = .next h' → h'.Inv) ∧
  ∀ (ops : List HostOp) (h : Session), hostRun ops Session.start = .next h → h.machine.Inv

/-- R105, R101 (D11, D18; log entry 5): a run of any length answers a state; once a step has faulted, every longer run
ends in that same state, and its outcome is the fault, never a successful end. -/
def Obligations.RunsEndInTheFaultedState : Prop :=
  (∀ (s : State) (k : Nat), ∃ t, Sys2Proof.core.run k s = .next t) ∧
  (∀ (s t : State) (m n : Nat) (f : Fault), Sys2Proof.core.run m s = .next t → t.fault = some f →
    Sys2Proof.core.run (m + n) s = .next t ∧ runOutcome (m + n) s = .fault f)
end

