-- ==== Sys2Proof/Laws/Decode.lean ====
section
/-! SUPPORT. A word as a number: its fields, the words of each format, and what each mask of R77 tests. -/

namespace Sys2Proof

/-- Concatenation as a number. -/
theorem toNat_append_eq {m n : Nat} (x : BitVec m) (y : BitVec n) : (x ++ y).toNat = x.toNat * 2 ^ n + y.toNat := by
  rw [BitVec.toNat_append, ← Nat.shiftLeft_add_eq_or_of_lt y.isLt, Nat.shiftLeft_eq]

/-! ### Fields (R71, R72) -/

theorem nibble1_eq (w : Word) : nibble1 w = w.toNat / 4096 := by
  have := w.isLt
  simp only [nibble1, BitVec.extractLsb'_toNat, Nat.shiftRight_eq_div_pow]; omega

theorem nibble4_eq (w : Word) : nibble4 w = w.toNat % 16 := by
  simp [nibble4, BitVec.extractLsb'_toNat]

theorem fieldX_val (w : Word) : (fieldX w).val = w.toNat / 256 % 16 := by
  simp [fieldX, Nat.shiftRight_eq_div_pow]

theorem fieldY_val (w : Word) : (fieldY w).val = w.toNat / 16 % 16 := by
  simp [fieldY, Nat.shiftRight_eq_div_pow]

theorem fieldN_val (w : Word) : (fieldN w).val = w.toNat % 16 := by
  simp [fieldN]

theorem fieldAddr_toNat (w : Word) : (fieldAddr w).toNat = w.toNat % 4096 := by
  simp [fieldAddr, BitVec.extractLsb'_toNat]

theorem fieldValue_toNat (w : Word) : (fieldValue w).toNat = w.toNat % 256 := by
  simp [fieldValue, BitVec.extractLsb'_toNat]

/-! ### Formats (R76) -/

theorem formNNN_toNat (op : BitVec 4) (addr : Address) : (formNNN op addr).toNat = op.toNat * 4096 + addr.toNat :=
  toNat_append_eq op addr

theorem formXKK_toNat (op : BitVec 4) (x : RegIndex) (value : Byte) :
    (formXKK op x value).toNat = op.toNat * 4096 + x.val * 256 + value.toNat := by
  rw [formXKK, toNat_append_eq, toNat_append_eq, Nat.add_assoc]; rfl

theorem formXYN_toNat (op : BitVec 4) (x y : RegIndex) (n : BitVec 4) :
    (formXYN op x y n).toNat = op.toNat * 4096 + x.val * 256 + y.val * 16 + n.toNat := by
  rw [formXYN, toNat_append_eq, toNat_append_eq, toNat_append_eq, Nat.add_assoc, Nat.add_assoc]; rfl

section
variable (op : BitVec 4) (addr : Address) (x y : RegIndex) (value : Byte) (n : BitVec 4)

@[simp] theorem nibble1_formNNN : nibble1 (formNNN op addr) = op.toNat := by
  have := addr.isLt; rw [nibble1_eq, formNNN_toNat]; omega

@[simp] theorem fieldAddr_formNNN : fieldAddr (formNNN op addr) = addr := by
  have := addr.isLt; apply BitVec.eq_of_toNat_eq; rw [fieldAddr_toNat, formNNN_toNat]; omega

@[simp] theorem nibble1_formXKK : nibble1 (formXKK op x value) = op.toNat := by
  have := x.isLt; have := value.isLt; rw [nibble1_eq, formXKK_toNat]; omega

@[simp] theorem fieldX_formXKK : fieldX (formXKK op x value) = x := by
  have := x.isLt; have := value.isLt; apply Fin.ext; rw [fieldX_val, formXKK_toNat]; omega

@[simp] theorem fieldValue_formXKK : fieldValue (formXKK op x value) = value := by
  have := value.isLt; apply BitVec.eq_of_toNat_eq; rw [fieldValue_toNat, formXKK_toNat]; omega

@[simp] theorem nibble1_formXYN : nibble1 (formXYN op x y n) = op.toNat := by
  have := x.isLt; have := y.isLt; have := n.isLt; rw [nibble1_eq, formXYN_toNat]; omega

@[simp] theorem fieldX_formXYN : fieldX (formXYN op x y n) = x := by
  have := x.isLt; have := y.isLt; have := n.isLt; apply Fin.ext; rw [fieldX_val, formXYN_toNat]; omega

@[simp] theorem fieldY_formXYN : fieldY (formXYN op x y n) = y := by
  have := y.isLt; have := n.isLt; apply Fin.ext; rw [fieldY_val, formXYN_toNat]; omega

@[simp] theorem nibble4_formXYN : nibble4 (formXYN op x y n) = n.toNat := by
  have := n.isLt; rw [nibble4_eq, formXYN_toNat]; omega

@[simp] theorem fieldN_formXYN (k : RowCount) : fieldN (formXYN op x y (BitVec.ofFin k)) = k := by
  have hk := k.isLt; apply Fin.ext; rw [fieldN_val, formXYN_toNat]
  simp only [BitVec.toNat_ofFin]; omega

end

/-! ### Masks (R74, R77) -/

/-- A word as its family nibble, its second nibble and its low byte. -/
theorem word_eq_formXKK (w : Word) : w = formXKK (BitVec.ofNat 4 (nibble1 w)) (fieldX w) (fieldValue w) := by
  have := w.isLt
  apply BitVec.eq_of_toNat_eq
  rw [formXKK_toNat, fieldX_val, fieldValue_toNat, nibble1_eq, BitVec.toNat_ofNat]; omega

/-- A word as its four nibbles. -/
theorem word_eq_formXYN (w : Word) :
    w = formXYN (BitVec.ofNat 4 (nibble1 w)) (fieldX w) (fieldY w) (BitVec.ofNat 4 (nibble4 w)) := by
  have := w.isLt
  apply BitVec.eq_of_toNat_eq
  rw [formXYN_toNat, fieldX_val, fieldY_val, nibble1_eq, nibble4_eq, BitVec.toNat_ofNat, BitVec.toNat_ofNat]; omega

/-- A word as its family nibble and its low 12 bits. -/
theorem word_eq_formNNN (w : Word) : w = formNNN (BitVec.ofNat 4 (nibble1 w)) (fieldAddr w) := by
  have := w.isLt
  apply BitVec.eq_of_toNat_eq
  rw [formNNN_toNat, fieldAddr_toNat, nibble1_eq, BitVec.toNat_ofNat]; omega

theorem formNNN_and_F000 (op : BitVec 4) (addr : Address) : formNNN op addr &&& 0xF000#16 = formNNN op 0#12 := by
  rw [show (0xF000#16) = 0xF#4 ++ 0x000#12 by decide, formNNN, BitVec.and_append,
    show (0xF#4) = BitVec.allOnes 4 by decide, BitVec.and_allOnes, BitVec.and_zero]; rfl

theorem formXKK_and_F000 (op : BitVec 4) (x : RegIndex) (value : Byte) :
    formXKK op x value &&& 0xF000#16 = formNNN op 0#12 := formNNN_and_F000 op _

theorem formXYN_and_F000 (op : BitVec 4) (x y : RegIndex) (n : BitVec 4) :
    formXYN op x y n &&& 0xF000#16 = formNNN op 0#12 := formNNN_and_F000 op _

theorem formXKK_and_F0FF (op : BitVec 4) (x : RegIndex) (value : Byte) :
    formXKK op x value &&& 0xF0FF#16 = formXKK op 0 value := by
  rw [show (0xF0FF#16) = 0xF#4 ++ (0x0#4 ++ 0xFF#8 : BitVec 12) by decide, formXKK, BitVec.and_append,
    BitVec.and_append, show (0xF#4) = BitVec.allOnes 4 by decide, show (0xFF#8) = BitVec.allOnes 8 by decide,
    BitVec.and_allOnes, BitVec.and_allOnes, BitVec.and_zero]; rfl

theorem formXYN_and_F00F (op : BitVec 4) (x y : RegIndex) (n : BitVec 4) :
    formXYN op x y n &&& 0xF00F#16 = formXYN op 0 0 n := by
  rw [show (0xF00F#16) = 0xF#4 ++ (0x0#4 ++ (0x0#4 ++ 0xF#4 : BitVec 8) : BitVec 12) by decide, formXYN,
    BitVec.and_append, BitVec.and_append, BitVec.and_append, show (0xF#4) = BitVec.allOnes 4 by decide,
    BitVec.and_allOnes, BitVec.and_allOnes, BitVec.and_zero, BitVec.and_zero]; rfl

/-- Mask 0xF000 leaves the family nibble. -/
theorem and_F000_toNat (w : Word) : (w &&& 0xF000#16).toNat = nibble1 w * 4096 := by
  have := w.isLt; have h := nibble1_eq w
  conv_lhs => rw [word_eq_formNNN w]
  rw [formNNN_and_F000, formNNN_toNat, BitVec.toNat_ofNat, BitVec.toNat_ofNat]; omega

/-- Mask 0xF00F leaves the first and the last nibble. -/
theorem and_F00F_toNat (w : Word) : (w &&& 0xF00F#16).toNat = nibble1 w * 4096 + nibble4 w := by
  have := w.isLt; have h := nibble1_eq w; have h4 := nibble4_eq w
  conv_lhs => rw [word_eq_formXYN w]
  rw [formXYN_and_F00F, formXYN_toNat, BitVec.toNat_ofNat, BitVec.toNat_ofNat]; simp; omega

/-- Mask 0xF0FF leaves the first nibble and the low byte. -/
theorem and_F0FF_toNat (w : Word) : (w &&& 0xF0FF#16).toNat = nibble1 w * 4096 + (fieldValue w).toNat := by
  have := w.isLt; have h := nibble1_eq w
  conv_lhs => rw [word_eq_formXKK w]
  rw [formXKK_and_F0FF, formXKK_toNat, BitVec.toNat_ofNat]; simp; omega

/-! ### Bytes of a word (R57) -/

/-- The two bytes of a word make the word. -/
theorem wordOfBytes_bytesOfWord (w : Word) : wordOfBytes (w.extractLsb' 8 8) (w.extractLsb' 0 8) = w := by
  have := w.isLt
  apply BitVec.eq_of_toNat_eq
  rw [wordOfBytes, toNat_append_eq, BitVec.extractLsb'_toNat, BitVec.extractLsb'_toNat, Nat.shiftRight_eq_div_pow,
    Nat.shiftRight_eq_div_pow]; omega

end Sys2Proof
end

