-- ==== Sys2Proof/Laws/Display.lean ====
section
/-! SUPPORT. The framebuffer's laws, and what one pixel, one row and one draw of the compositor do. -/

namespace Sys2Proof.Machine

/-- A framebuffer is its pixels. -/
theorem Framebuffer.ext_get {f g : Framebuffer} (h : ∀ i, f.get i = g.get i) : f = g := by
  obtain ⟨p, hp⟩ := f
  obtain ⟨q, hq⟩ := g
  have : p = q := by
    apply List.ext_getElem (by rw [hp, hq])
    intro i h1 h2
    exact h ⟨i, by omega⟩
  subst this; rfl

@[simp] theorem Framebuffer.get_set_self (f : Framebuffer) (i : PixelIndex) (p : Bool) : (f.set i p).get i = p := by
  simp [Framebuffer.get, Framebuffer.set]

theorem Framebuffer.get_set (f : Framebuffer) (i j : PixelIndex) (p : Bool) :
    (f.set i p).get j = if i = j then p else f.get j := by
  simp only [Framebuffer.get, Framebuffer.set, List.getElem_set, Fin.ext_iff]

@[simp] theorem Framebuffer.get_blank (i : PixelIndex) : Framebuffer.blank.get i = false := by
  simp [Framebuffer.get, Framebuffer.blank]

@[simp] theorem Canvas.drawPixel_get (c : Canvas) (i j : PixelIndex) (p : Bool) :
    (c.drawPixel i p).fb.get j = (c.fb.get j ^^ (p && decide (i = j))) := by
  simp only [Canvas.drawPixel, Framebuffer.get_set]
  by_cases h : i = j
  · subst h; simp
  · simp [h]

@[simp] theorem Canvas.drawPixel_collision (c : Canvas) (i : PixelIndex) (p : Bool) :
    (c.drawPixel i p).collision = (c.collision || (c.fb.get i && p)) := by
  simp only [Canvas.drawPixel, pixelCollision]
  cases c.fb.get i <;> cases p <;> simp

/-- An index names its column. -/
theorem pixelIndex_mod (sx sy : Byte) (xx yy : Nat) :
    (pixelIndex sx sy xx yy).val % 64 = (sx.toNat + xx) % 64 := by
  simp only [pixelIndex]; omega

/-- An index names its row. -/
theorem pixelIndex_div (sx sy : Byte) (xx yy : Nat) :
    (pixelIndex sx sy xx yy).val / 64 = (sy.toNat + yy) % 32 := by
  simp only [pixelIndex]; omega

/-- Within one draw no pixel is touched twice. -/
theorem pixelIndex_inj {sx sy : Byte} {xx yy xx' yy' : Nat} (hx : xx < 8) (hx' : xx' < 8) (hy : yy < 32) (hy' : yy' < 32)
    (h : pixelIndex sx sy xx yy = pixelIndex sx sy xx' yy') : xx = xx' ∧ yy = yy' := by
  have h1 := pixelIndex_mod sx sy xx yy
  have h2 := pixelIndex_mod sx sy xx' yy'
  have h3 := pixelIndex_div sx sy xx yy
  have h4 := pixelIndex_div sx sy xx' yy'
  rw [h] at h1 h3
  have := sx.isLt
  have := sy.isLt
  omega

/-- Columns drawn one after another: a pixel none of them touches keeps its value. -/
theorem Canvas.foldl_get_of_untouched {sx sy : Byte} {yy : Nat} {row : Byte} {j : PixelIndex} (cols : List Nat)
    (c : Canvas) (h : ∀ xx ∈ cols, pixelIndex sx sy xx yy ≠ j) :
    (cols.foldl (fun c xx => c.drawPixel (pixelIndex sx sy xx yy) (spritePixel row xx)) c).fb.get j = c.fb.get j := by
  induction cols generalizing c with
  | nil => rfl
  | cons xx cols ih =>
    rw [List.foldl_cons, ih _ (fun x hx => h x (by simp [hx])), Canvas.drawPixel_get]
    simp [h xx (by simp)]

/-- Distinct columns drawn one after another: each touched pixel is XORed once. -/
theorem Canvas.foldl_get_of_touched {sx sy : Byte} {yy : Nat} {row : Byte} (hy : yy < 32) (cols : List Nat) (c : Canvas)
    (hc : ∀ xx ∈ cols, xx < 8) (hn : cols.Nodup) {xx : Nat} (hx : xx ∈ cols) :
    (cols.foldl (fun c xx => c.drawPixel (pixelIndex sx sy xx yy) (spritePixel row xx)) c).fb.get
      (pixelIndex sx sy xx yy) = (c.fb.get (pixelIndex sx sy xx yy) ^^ spritePixel row xx) := by
  induction cols generalizing c with
  | nil => simp at hx
  | cons x0 cols ih =>
    obtain ⟨hx0, hn'⟩ := List.nodup_cons.1 hn
    have hc' : ∀ x ∈ cols, x < 8 := fun x hx => hc x (by simp [hx])
    rw [List.foldl_cons]
    by_cases he : xx = x0
    · subst he
      rw [Canvas.foldl_get_of_untouched cols _ (fun x hx hi => hx0 ((pixelIndex_inj (hc' x hx) (hc xx (by simp)) hy hy hi).1 ▸ hx))]
      simp
    · have hxc : xx ∈ cols := (List.mem_cons.1 hx).resolve_left he
      rw [ih _ hc' hn' hxc, Canvas.drawPixel_get]
      have : pixelIndex sx sy x0 yy ≠ pixelIndex sx sy xx yy :=
        fun hi => he (pixelIndex_inj (hc x0 (by simp)) (hc xx hx) hy hy hi).1.symm
      simp [this]

/-- Distinct columns drawn one after another: the flag is set exactly when one of them found its pixel lit. -/
theorem Canvas.foldl_collision {sx sy : Byte} {yy : Nat} {row : Byte} (hy : yy < 32) (cols : List Nat) (c : Canvas)
    (hc : ∀ xx ∈ cols, xx < 8) (hn : cols.Nodup) :
    (cols.foldl (fun c xx => c.drawPixel (pixelIndex sx sy xx yy) (spritePixel row xx)) c).collision = true ↔
      c.collision = true ∨ ∃ xx ∈ cols, c.fb.get (pixelIndex sx sy xx yy) = true ∧ spritePixel row xx = true := by
  induction cols generalizing c with
  | nil => simp
  | cons x0 cols ih =>
    obtain ⟨hx0, hn'⟩ := List.nodup_cons.1 hn
    have hc' : ∀ x ∈ cols, x < 8 := fun x hx => hc x (by simp [hx])
    have keep : ∀ x ∈ cols, (c.drawPixel (pixelIndex sx sy x0 yy) (spritePixel row x0)).fb.get (pixelIndex sx sy x yy) =
        c.fb.get (pixelIndex sx sy x yy) := by
      intro x hx
      have : pixelIndex sx sy x0 yy ≠ pixelIndex sx sy x yy :=
        fun hi => hx0 ((pixelIndex_inj (hc x0 (by simp)) (hc' x hx) hy hy hi).1 ▸ hx)
      simp [this]
    rw [List.foldl_cons, ih _ hc' hn', Canvas.drawPixel_collision]
    simp only [List.mem_cons, exists_eq_or_imp, Bool.or_eq_true, Bool.and_eq_true, or_assoc]
    refine or_congr_right (or_congr_right (exists_congr fun x => and_congr_right fun hx => ?_))
    rw [keep x hx]

/-- One row of a draw, at a pixel it touches: XORed with the sprite pixel. -/
theorem Canvas.drawRow_get_touched {sx sy : Byte} {xx yy : Nat} (hx : xx < 8) (hy : yy < 32) (row : Byte) (c : Canvas) :
    (c.drawRow sx sy yy row).fb.get (pixelIndex sx sy xx yy) =
      (c.fb.get (pixelIndex sx sy xx yy) ^^ spritePixel row xx) :=
  Canvas.foldl_get_of_touched hy _ c (fun _ h => List.mem_range.1 h) List.nodup_range (List.mem_range.2 hx)

/-- One row of a draw, at a pixel it does not touch. -/
theorem Canvas.drawRow_get_untouched {sx sy : Byte} {yy : Nat} {j : PixelIndex} (row : Byte) (c : Canvas)
    (h : ∀ xx < 8, pixelIndex sx sy xx yy ≠ j) : (c.drawRow sx sy yy row).fb.get j = c.fb.get j :=
  Canvas.foldl_get_of_untouched _ c (fun xx hx => h xx (List.mem_range.1 hx))

/-- The collision flag after one row. -/
theorem Canvas.drawRow_collision {sx sy : Byte} {yy : Nat} (hy : yy < 32) (row : Byte) (c : Canvas) :
    (c.drawRow sx sy yy row).collision = true ↔
      c.collision = true ∨ ∃ xx < 8, c.fb.get (pixelIndex sx sy xx yy) = true ∧ spritePixel row xx = true := by
  have := Canvas.foldl_collision (sx := sx) (sy := sy) (row := row) hy (List.range 8) c
    (fun _ h => List.mem_range.1 h) List.nodup_range
  simpa only [Canvas.drawRow, List.mem_range] using this

/-- Drawing the rows of a list one by one. -/
theorem Canvas.drawRows_cons (sx sy : Byte) (yy : Nat) (row : Byte) (rows : List Byte) (c : Canvas) :
    Canvas.drawRows sx sy yy (row :: rows) c = Canvas.drawRows sx sy (yy + 1) rows (c.drawRow sx sy yy row) := rfl

end Sys2Proof.Machine
end

