-- ==== Sys2Proof/Laws/Memory.lean ====
section
/-! SUPPORT. The laws of memory: reads after writes, and the canonical form kept by every operation. -/

namespace Sys2Proof.Machine

/-- An address below every listed one reads as an unlisted byte. -/
theorem Memory.read_of_lt_all {m : Memory} {a : Nat} (h : ∀ c ∈ m, a < c.1) : m.read a = Config.unlistedByte := by
  induction m with
  | nil => rfl
  | cons c m ih =>
    have hc := h c (by simp)
    rw [Memory.read, if_neg (by omega)]
    exact ih (fun d hd => h d (by simp [hd]))

/-- The canonical form of a nonempty list, as propositions. -/
theorem Memory.wf_cons {k : Nat} {c : Byte} {m : Memory} :
    Memory.wf ((k, c) :: m) = true ↔
      k < Config.memSize ∧ c ≠ Config.unlistedByte ∧ (∀ d ∈ m, k < d.1) ∧ m.wf = true := by
  simp [Memory.wf, and_assoc]

/-- Every address listed after a write was listed before or is the one written. -/
theorem Memory.mem_write {m : Memory} {a : Nat} {b : Byte} {c : Host.Cell} (h : c ∈ m.write a b) :
    c ∈ m ∨ c.1 = a := by
  induction m with
  | nil =>
    simp only [Memory.write] at h
    split at h
    · simp at h
    · simp at h; exact .inr (by rw [h])
  | cons d m ih =>
    obtain ⟨k, x⟩ := d
    simp only [Memory.write] at h
    by_cases hk : k < a
    · rw [if_pos hk] at h
      rcases List.mem_cons.1 h with h | h
      · exact .inl (by simp [h])
      · exact (ih h).imp_left (fun h => by simp [h])
    · rw [if_neg hk] at h
      have key : c ∈ (if k = a then m else (k, x) :: m) → c ∈ (k, x) :: m := by
        split <;> intro hc
        · exact List.mem_cons_of_mem _ hc
        · exact hc
      split at h
      · exact .inl (key h)
      · rcases List.mem_cons.1 h with h | h
        · exact .inr (by rw [h])
        · exact .inl (key h)

/-- Writing keeps the canonical form. -/
theorem Memory.wf_write {m : Memory} {a : Nat} {b : Byte} (hm : m.wf = true) (ha : a < Config.memSize) :
    (m.write a b).wf = true := by
  induction m with
  | nil =>
    simp only [Memory.write]
    split
    · rfl
    · rename_i hb; exact Memory.wf_cons.2 ⟨ha, hb, by simp, rfl⟩
  | cons d m ih =>
    obtain ⟨k, x⟩ := d
    obtain ⟨hk, hx, hall, hw⟩ := Memory.wf_cons.1 hm
    simp only [Memory.write]
    by_cases hka : k < a
    · rw [if_pos hka]
      refine Memory.wf_cons.2 ⟨hk, hx, fun c hc => ?_, ih hw⟩
      rcases Memory.mem_write hc with h | h
      · exact hall c h
      · omega
    · rw [if_neg hka]
      have hrest : Memory.wf (if k = a then m else (k, x) :: m) = true ∧
          ∀ c ∈ (if k = a then m else (k, x) :: m), a < c.1 := by
        by_cases hk' : k = a
        · subst hk'; simpa using ⟨hw, fun y z hc => hall (y, z) hc⟩
        · rw [if_neg hk']
          refine ⟨hm, fun c hc => ?_⟩
          rcases List.mem_cons.1 hc with h | h
          · subst h; simp only; omega
          · have := hall c h; omega
      split
      · exact hrest.1
      · rename_i hb; exact Memory.wf_cons.2 ⟨ha, hb, hrest.2, hrest.1⟩

/-- A read after a write, in a memory in canonical form. -/
theorem Memory.read_write {m : Memory} {a a' : Nat} {b : Byte} (hm : m.wf = true) :
    (m.write a b).read a' = if a' = a then b else m.read a' := by
  induction m with
  | nil =>
    simp only [Memory.write]
    by_cases hb : b = Config.unlistedByte
    · simp [hb, Memory.read]
    · simp only [if_neg hb, Memory.read]
      by_cases h : a = a'
      · simp [h]
      · simp [h, Ne.symm h]
  | cons d m ih =>
    obtain ⟨k, x⟩ := d
    obtain ⟨hk, hx, hall, hw⟩ := Memory.wf_cons.1 hm
    simp only [Memory.write]
    by_cases hka : k < a
    · rw [if_pos hka]
      simp only [Memory.read, ih hw]
      by_cases h : k = a'
      · rw [if_pos h, if_neg (by omega), if_pos h]
      · simp only [if_neg h]
    · rw [if_neg hka]
      have hrest : ∀ y, y ≠ a → Memory.read (if k = a then m else (k, x) :: m) y = Memory.read ((k, x) :: m) y := by
        intro y hy
        by_cases hk' : k = a
        · simp only [if_pos hk', Memory.read]; rw [if_neg (by omega)]
        · rw [if_neg hk']
      have hlow : Memory.read (if k = a then m else (k, x) :: m) a = Config.unlistedByte := by
        apply Memory.read_of_lt_all
        by_cases hk' : k = a
        · subst hk'; simpa using fun y z hc => hall (y, z) hc
        · rw [if_neg hk']
          intro c hc
          rcases List.mem_cons.1 hc with h | h
          · subst h; simp only; omega
          · have := hall c h; omega
      by_cases hb : b = Config.unlistedByte
      · rw [if_pos hb]
        by_cases h : a' = a
        · subst h; rw [if_pos rfl, hb, hlow]
        · rw [if_neg h, hrest _ h]
      · rw [if_neg hb, Memory.read]
        by_cases h : a = a'
        · simp [h]
        · rw [if_neg h, if_neg (Ne.symm h), hrest _ (Ne.symm h)]

/-- Writing a run of bytes inside memory keeps the canonical form. -/
theorem Memory.wf_writeBytes {bs : List Byte} {m : Memory} {a : Nat} (hm : m.wf = true)
    (ha : a + bs.length ≤ Config.memSize) : (m.writeBytes a bs).wf = true := by
  induction bs generalizing m a with
  | nil => exact hm
  | cons b bs ih =>
    simp only [List.length_cons] at ha
    exact ih (Memory.wf_write hm (by omega)) (by omega)

/-- A read after writing a run of bytes: the byte written there, or what stood there before. -/
theorem Memory.read_writeBytes {bs : List Byte} {m : Memory} {a y : Nat} (hm : m.wf = true)
    (ha : a + bs.length ≤ Config.memSize) :
    (m.writeBytes a bs).read y = if a ≤ y then (bs[y - a]?).getD (m.read y) else m.read y := by
  induction bs generalizing m a with
  | nil => simp [Memory.writeBytes]
  | cons b bs ih =>
    simp only [List.length_cons] at ha
    rw [Memory.writeBytes, ih (Memory.wf_write hm (by omega)) (by omega), Memory.read_write hm]
    by_cases h : a + 1 ≤ y
    · rw [if_pos h, if_neg (by omega : ¬ y = a), if_pos (by omega : a ≤ y), show y - a = (y - (a + 1)) + 1 by omega,
        List.getElem?_cons_succ]
    · rw [if_neg h]
      by_cases hy : y = a
      · subst hy; simp
      · rw [if_neg hy, if_neg (by omega : ¬ a ≤ y)]

/-- The length of a run of bytes read. -/
@[simp] theorem Memory.length_readBytes (m : Memory) (a n : Nat) : (m.readBytes a n).length = n := by
  simp [Memory.readBytes]

/-- The bytes of a run of bytes read. -/
theorem Memory.getElem?_readBytes (m : Memory) (a n k : Nat) (h : k < n) :
    (m.readBytes a n)[k]? = some (m.read (a + k)) := by
  simp [Memory.readBytes, h]

end Sys2Proof.Machine
end

