-- ==== Sys2Proof/Laws/PerInstr.lean ====
section
/-! SUPPORT. A law of every instruction as syntax: its encoding lies in its own row of R77's table. -/

namespace Sys2Proof

/-- The mask of an instruction's row (R77). -/
def Instr.rowMask : Instr → Word
  | .clearScreen | .ret => 0xFFFF#16
  | .sysCall _ | .jump _ | .call _ | .skipIfRegValEqual _ _ | .skipIfRegValNotEqual _ _ | .loadValToReg _ _
  | .addValToReg _ _ | .loadValToI _ | .jumpPlusV0 _ | .loadRandomAndValToReg _ _ | .drawSprite _ _ _ => 0xF000#16
  | .skipIfRegsEqual _ _ | .loadRegToReg _ _ | .orRegs _ _ | .andRegs _ _ | .xorRegs _ _ | .addRegToReg _ _
  | .subRegFromReg _ _ | .shiftRight _ _ | .subRegFromRegReversed _ _ | .shiftLeft _ _
  | .skipIfRegsNotEqual _ _ => 0xF00F#16
  | .skipIfKeyPressed _ | .skipIfKeyNotPressed _ | .loadDelayTimerToReg _ | .waitKeyToReg _
  | .loadRegToDelayTimer _ | .loadRegToSoundTimer _ | .addRegToI _ | .loadFontAddrToI _ | .storeBcd _
  | .storeRegsToMem _ | .loadRegsFromMem _ => 0xF0FF#16
  | .unknown _ => 0x0000#16

/-- The pattern of an instruction's row (R77). -/
def Instr.rowPattern : Instr → Word
  | .clearScreen => 0x00E0#16
  | .ret => 0x00EE#16
  | .sysCall _ => 0x0000#16
  | .jump _ => 0x1000#16
  | .call _ => 0x2000#16
  | .skipIfRegValEqual _ _ => 0x3000#16
  | .skipIfRegValNotEqual _ _ => 0x4000#16
  | .skipIfRegsEqual _ _ => 0x5000#16
  | .loadValToReg _ _ => 0x6000#16
  | .addValToReg _ _ => 0x7000#16
  | .loadRegToReg _ _ => 0x8000#16
  | .orRegs _ _ => 0x8001#16
  | .andRegs _ _ => 0x8002#16
  | .xorRegs _ _ => 0x8003#16
  | .addRegToReg _ _ => 0x8004#16
  | .subRegFromReg _ _ => 0x8005#16
  | .shiftRight _ _ => 0x8006#16
  | .subRegFromRegReversed _ _ => 0x8007#16
  | .shiftLeft _ _ => 0x800E#16
  | .skipIfRegsNotEqual _ _ => 0x9000#16
  | .loadValToI _ => 0xA000#16
  | .jumpPlusV0 _ => 0xB000#16
  | .loadRandomAndValToReg _ _ => 0xC000#16
  | .drawSprite _ _ _ => 0xD000#16
  | .skipIfKeyPressed _ => 0xE09E#16
  | .skipIfKeyNotPressed _ => 0xE0A1#16
  | .loadDelayTimerToReg _ => 0xF007#16
  | .waitKeyToReg _ => 0xF00A#16
  | .loadRegToDelayTimer _ => 0xF015#16
  | .loadRegToSoundTimer _ => 0xF018#16
  | .addRegToI _ => 0xF01E#16
  | .loadFontAddrToI _ => 0xF029#16
  | .storeBcd _ => 0xF033#16
  | .storeRegsToMem _ => 0xF055#16
  | .loadRegsFromMem _ => 0xF065#16
  | .unknown _ => 0x0000#16

end Sys2Proof

namespace Sys2Proof.Laws.EncodesInRow

/-- `(w and mask) = match` for the instruction's encoding `w` and its row (R74, R82). -/
def Statement (i : Instr) : Prop := encode i &&& i.rowMask = i.rowPattern

theorem clearScreen : Statement .clearScreen := by simp only [Statement, encode, Instr.rowMask, Instr.rowPattern]; decide
theorem ret : Statement .ret := by simp only [Statement, encode, Instr.rowMask, Instr.rowPattern]; decide
theorem sysCall (addr : Address) : Statement (.sysCall addr) := formNNN_and_F000 _ _
theorem jump (addr : Address) : Statement (.jump addr) := formNNN_and_F000 _ _
theorem call (addr : Address) : Statement (.call addr) := formNNN_and_F000 _ _
theorem skipIfRegValEqual (x : RegIndex) (value : Byte) : Statement (.skipIfRegValEqual x value) := formXKK_and_F000 _ _ _
theorem skipIfRegValNotEqual (x : RegIndex) (value : Byte) : Statement (.skipIfRegValNotEqual x value) := formXKK_and_F000 _ _ _
theorem skipIfRegsEqual (x : RegIndex) (y : RegIndex) : Statement (.skipIfRegsEqual x y) := formXYN_and_F00F _ _ _ _
theorem loadValToReg (x : RegIndex) (value : Byte) : Statement (.loadValToReg x value) := formXKK_and_F000 _ _ _
theorem addValToReg (x : RegIndex) (value : Byte) : Statement (.addValToReg x value) := formXKK_and_F000 _ _ _
theorem loadRegToReg (x : RegIndex) (y : RegIndex) : Statement (.loadRegToReg x y) := formXYN_and_F00F _ _ _ _
theorem orRegs (x : RegIndex) (y : RegIndex) : Statement (.orRegs x y) := formXYN_and_F00F _ _ _ _
theorem andRegs (x : RegIndex) (y : RegIndex) : Statement (.andRegs x y) := formXYN_and_F00F _ _ _ _
theorem xorRegs (x : RegIndex) (y : RegIndex) : Statement (.xorRegs x y) := formXYN_and_F00F _ _ _ _
theorem addRegToReg (x : RegIndex) (y : RegIndex) : Statement (.addRegToReg x y) := formXYN_and_F00F _ _ _ _
theorem subRegFromReg (x : RegIndex) (y : RegIndex) : Statement (.subRegFromReg x y) := formXYN_and_F00F _ _ _ _
theorem shiftRight (x : RegIndex) (y : RegIndex) : Statement (.shiftRight x y) := formXYN_and_F00F _ _ _ _
theorem subRegFromRegReversed (x : RegIndex) (y : RegIndex) : Statement (.subRegFromRegReversed x y) := formXYN_and_F00F _ _ _ _
theorem shiftLeft (x : RegIndex) (y : RegIndex) : Statement (.shiftLeft x y) := formXYN_and_F00F _ _ _ _
theorem skipIfRegsNotEqual (x : RegIndex) (y : RegIndex) : Statement (.skipIfRegsNotEqual x y) := formXYN_and_F00F _ _ _ _
theorem loadValToI (value : Address) : Statement (.loadValToI value) := formNNN_and_F000 _ _
theorem jumpPlusV0 (addr : Address) : Statement (.jumpPlusV0 addr) := formNNN_and_F000 _ _
theorem loadRandomAndValToReg (x : RegIndex) (value : Byte) : Statement (.loadRandomAndValToReg x value) := formXKK_and_F000 _ _ _
theorem drawSprite (x : RegIndex) (y : RegIndex) (n : RowCount) : Statement (.drawSprite x y n) := formXYN_and_F000 _ _ _ _
theorem skipIfKeyPressed (x : RegIndex) : Statement (.skipIfKeyPressed x) := formXKK_and_F0FF _ _ _
theorem skipIfKeyNotPressed (x : RegIndex) : Statement (.skipIfKeyNotPressed x) := formXKK_and_F0FF _ _ _
theorem loadDelayTimerToReg (x : RegIndex) : Statement (.loadDelayTimerToReg x) := formXKK_and_F0FF _ _ _
theorem waitKeyToReg (x : RegIndex) : Statement (.waitKeyToReg x) := formXKK_and_F0FF _ _ _
theorem loadRegToDelayTimer (x : RegIndex) : Statement (.loadRegToDelayTimer x) := formXKK_and_F0FF _ _ _
theorem loadRegToSoundTimer (x : RegIndex) : Statement (.loadRegToSoundTimer x) := formXKK_and_F0FF _ _ _
theorem addRegToI (x : RegIndex) : Statement (.addRegToI x) := formXKK_and_F0FF _ _ _
theorem loadFontAddrToI (x : RegIndex) : Statement (.loadFontAddrToI x) := formXKK_and_F0FF _ _ _
theorem storeBcd (x : RegIndex) : Statement (.storeBcd x) := formXKK_and_F0FF _ _ _
theorem storeRegsToMem (x : RegIndex) : Statement (.storeRegsToMem x) := formXKK_and_F0FF _ _ _
theorem loadRegsFromMem (x : RegIndex) : Statement (.loadRegsFromMem x) := formXKK_and_F0FF _ _ _
theorem unknown (word : Word) : Statement (.unknown word) := BitVec.and_zero

end Sys2Proof.Laws.EncodesInRow
end

