-- ==== Sys2Proof/Laws/State.lean ====
section
/-! SUPPORT. One lemma per field per update of State, each true by rfl, so that no proof unfolds a record update. -/

namespace Sys2Proof.Machine

variable (s : State)

/-! ### State.latch -/

@[simp] theorem State.latch_memory (f : Fault) : (s.latch f).memory = s.memory := rfl
@[simp] theorem State.latch_program_counter (f : Fault) : (s.latch f).program_counter = s.program_counter := rfl
@[simp] theorem State.latch_v (f : Fault) : (s.latch f).v = s.v := rfl
@[simp] theorem State.latch_reg_i (f : Fault) : (s.latch f).reg_i = s.reg_i := rfl
@[simp] theorem State.latch_stack (f : Fault) : (s.latch f).stack = s.stack := rfl
@[simp] theorem State.latch_delay_timer (f : Fault) : (s.latch f).delay_timer = s.delay_timer := rfl
@[simp] theorem State.latch_sound_timer (f : Fault) : (s.latch f).sound_timer = s.sound_timer := rfl
@[simp] theorem State.latch_keyboard (f : Fault) : (s.latch f).keyboard = s.keyboard := rfl
@[simp] theorem State.latch_display_memory (f : Fault) : (s.latch f).display_memory = s.display_memory := rfl
@[simp] theorem State.latch_rng (f : Fault) : (s.latch f).rng = s.rng := rfl
@[simp] theorem State.latch_fault (f : Fault) : (s.latch f).fault = some f := rfl

/-! ### State.setPc -/

@[simp] theorem State.setPc_memory (w : Word) : (s.setPc w).memory = s.memory := rfl
@[simp] theorem State.setPc_program_counter (w : Word) : (s.setPc w).program_counter = w := rfl
@[simp] theorem State.setPc_v (w : Word) : (s.setPc w).v = s.v := rfl
@[simp] theorem State.setPc_reg_i (w : Word) : (s.setPc w).reg_i = s.reg_i := rfl
@[simp] theorem State.setPc_stack (w : Word) : (s.setPc w).stack = s.stack := rfl
@[simp] theorem State.setPc_delay_timer (w : Word) : (s.setPc w).delay_timer = s.delay_timer := rfl
@[simp] theorem State.setPc_sound_timer (w : Word) : (s.setPc w).sound_timer = s.sound_timer := rfl
@[simp] theorem State.setPc_keyboard (w : Word) : (s.setPc w).keyboard = s.keyboard := rfl
@[simp] theorem State.setPc_display_memory (w : Word) : (s.setPc w).display_memory = s.display_memory := rfl
@[simp] theorem State.setPc_rng (w : Word) : (s.setPc w).rng = s.rng := rfl
@[simp] theorem State.setPc_fault (w : Word) : (s.setPc w).fault = s.fault := rfl

/-! ### State.advancePc -/

@[simp] theorem State.advancePc_memory : s.advancePc.memory = s.memory := rfl
@[simp] theorem State.advancePc_program_counter : s.advancePc.program_counter = s.program_counter + 2#16 := rfl
@[simp] theorem State.advancePc_v : s.advancePc.v = s.v := rfl
@[simp] theorem State.advancePc_reg_i : s.advancePc.reg_i = s.reg_i := rfl
@[simp] theorem State.advancePc_stack : s.advancePc.stack = s.stack := rfl
@[simp] theorem State.advancePc_delay_timer : s.advancePc.delay_timer = s.delay_timer := rfl
@[simp] theorem State.advancePc_sound_timer : s.advancePc.sound_timer = s.sound_timer := rfl
@[simp] theorem State.advancePc_keyboard : s.advancePc.keyboard = s.keyboard := rfl
@[simp] theorem State.advancePc_display_memory : s.advancePc.display_memory = s.display_memory := rfl
@[simp] theorem State.advancePc_rng : s.advancePc.rng = s.rng := rfl
@[simp] theorem State.advancePc_fault : s.advancePc.fault = s.fault := rfl

/-! ### State.setV -/

@[simp] theorem State.setV_memory (i : RegIndex) (b : Byte) : (s.setV i b).memory = s.memory := rfl
@[simp] theorem State.setV_program_counter (i : RegIndex) (b : Byte) : (s.setV i b).program_counter = s.program_counter := rfl
@[simp] theorem State.setV_v (i : RegIndex) (b : Byte) : (s.setV i b).v = s.v.set i b := rfl
@[simp] theorem State.setV_reg_i (i : RegIndex) (b : Byte) : (s.setV i b).reg_i = s.reg_i := rfl
@[simp] theorem State.setV_stack (i : RegIndex) (b : Byte) : (s.setV i b).stack = s.stack := rfl
@[simp] theorem State.setV_delay_timer (i : RegIndex) (b : Byte) : (s.setV i b).delay_timer = s.delay_timer := rfl
@[simp] theorem State.setV_sound_timer (i : RegIndex) (b : Byte) : (s.setV i b).sound_timer = s.sound_timer := rfl
@[simp] theorem State.setV_keyboard (i : RegIndex) (b : Byte) : (s.setV i b).keyboard = s.keyboard := rfl
@[simp] theorem State.setV_display_memory (i : RegIndex) (b : Byte) : (s.setV i b).display_memory = s.display_memory := rfl
@[simp] theorem State.setV_rng (i : RegIndex) (b : Byte) : (s.setV i b).rng = s.rng := rfl
@[simp] theorem State.setV_fault (i : RegIndex) (b : Byte) : (s.setV i b).fault = s.fault := rfl

/-! ### State.setI -/

@[simp] theorem State.setI_memory (w : Word) : (s.setI w).memory = s.memory := rfl
@[simp] theorem State.setI_program_counter (w : Word) : (s.setI w).program_counter = s.program_counter := rfl
@[simp] theorem State.setI_v (w : Word) : (s.setI w).v = s.v := rfl
@[simp] theorem State.setI_reg_i (w : Word) : (s.setI w).reg_i = w := rfl
@[simp] theorem State.setI_stack (w : Word) : (s.setI w).stack = s.stack := rfl
@[simp] theorem State.setI_delay_timer (w : Word) : (s.setI w).delay_timer = s.delay_timer := rfl
@[simp] theorem State.setI_sound_timer (w : Word) : (s.setI w).sound_timer = s.sound_timer := rfl
@[simp] theorem State.setI_keyboard (w : Word) : (s.setI w).keyboard = s.keyboard := rfl
@[simp] theorem State.setI_display_memory (w : Word) : (s.setI w).display_memory = s.display_memory := rfl
@[simp] theorem State.setI_rng (w : Word) : (s.setI w).rng = s.rng := rfl
@[simp] theorem State.setI_fault (w : Word) : (s.setI w).fault = s.fault := rfl

/-! ### State.flipRng -/

@[simp] theorem State.flipRng_memory : s.flipRng.memory = s.memory := rfl
@[simp] theorem State.flipRng_program_counter : s.flipRng.program_counter = s.program_counter := rfl
@[simp] theorem State.flipRng_v : s.flipRng.v = s.v := rfl
@[simp] theorem State.flipRng_reg_i : s.flipRng.reg_i = s.reg_i := rfl
@[simp] theorem State.flipRng_stack : s.flipRng.stack = s.stack := rfl
@[simp] theorem State.flipRng_delay_timer : s.flipRng.delay_timer = s.delay_timer := rfl
@[simp] theorem State.flipRng_sound_timer : s.flipRng.sound_timer = s.sound_timer := rfl
@[simp] theorem State.flipRng_keyboard : s.flipRng.keyboard = s.keyboard := rfl
@[simp] theorem State.flipRng_display_memory : s.flipRng.display_memory = s.display_memory := rfl
@[simp] theorem State.flipRng_rng : s.flipRng.rng = !s.rng := rfl
@[simp] theorem State.flipRng_fault : s.flipRng.fault = s.fault := rfl

/-! ### State.setDisplay -/

@[simp] theorem State.setDisplay_memory (fb : Framebuffer) : (s.setDisplay fb).memory = s.memory := rfl
@[simp] theorem State.setDisplay_program_counter (fb : Framebuffer) : (s.setDisplay fb).program_counter = s.program_counter := rfl
@[simp] theorem State.setDisplay_v (fb : Framebuffer) : (s.setDisplay fb).v = s.v := rfl
@[simp] theorem State.setDisplay_reg_i (fb : Framebuffer) : (s.setDisplay fb).reg_i = s.reg_i := rfl
@[simp] theorem State.setDisplay_stack (fb : Framebuffer) : (s.setDisplay fb).stack = s.stack := rfl
@[simp] theorem State.setDisplay_delay_timer (fb : Framebuffer) : (s.setDisplay fb).delay_timer = s.delay_timer := rfl
@[simp] theorem State.setDisplay_sound_timer (fb : Framebuffer) : (s.setDisplay fb).sound_timer = s.sound_timer := rfl
@[simp] theorem State.setDisplay_keyboard (fb : Framebuffer) : (s.setDisplay fb).keyboard = s.keyboard := rfl
@[simp] theorem State.setDisplay_display_memory (fb : Framebuffer) : (s.setDisplay fb).display_memory = fb := rfl
@[simp] theorem State.setDisplay_rng (fb : Framebuffer) : (s.setDisplay fb).rng = s.rng := rfl
@[simp] theorem State.setDisplay_fault (fb : Framebuffer) : (s.setDisplay fb).fault = s.fault := rfl

/-! ### State.setMemory -/

@[simp] theorem State.setMemory_memory (m : Memory) : (s.setMemory m).memory = m := rfl
@[simp] theorem State.setMemory_program_counter (m : Memory) : (s.setMemory m).program_counter = s.program_counter := rfl
@[simp] theorem State.setMemory_v (m : Memory) : (s.setMemory m).v = s.v := rfl
@[simp] theorem State.setMemory_reg_i (m : Memory) : (s.setMemory m).reg_i = s.reg_i := rfl
@[simp] theorem State.setMemory_stack (m : Memory) : (s.setMemory m).stack = s.stack := rfl
@[simp] theorem State.setMemory_delay_timer (m : Memory) : (s.setMemory m).delay_timer = s.delay_timer := rfl
@[simp] theorem State.setMemory_sound_timer (m : Memory) : (s.setMemory m).sound_timer = s.sound_timer := rfl
@[simp] theorem State.setMemory_keyboard (m : Memory) : (s.setMemory m).keyboard = s.keyboard := rfl
@[simp] theorem State.setMemory_display_memory (m : Memory) : (s.setMemory m).display_memory = s.display_memory := rfl
@[simp] theorem State.setMemory_rng (m : Memory) : (s.setMemory m).rng = s.rng := rfl
@[simp] theorem State.setMemory_fault (m : Memory) : (s.setMemory m).fault = s.fault := rfl

/-! ### State.setStack -/

@[simp] theorem State.setStack_memory (l : List Word) : (s.setStack l).memory = s.memory := rfl
@[simp] theorem State.setStack_program_counter (l : List Word) : (s.setStack l).program_counter = s.program_counter := rfl
@[simp] theorem State.setStack_v (l : List Word) : (s.setStack l).v = s.v := rfl
@[simp] theorem State.setStack_reg_i (l : List Word) : (s.setStack l).reg_i = s.reg_i := rfl
@[simp] theorem State.setStack_stack (l : List Word) : (s.setStack l).stack = l := rfl
@[simp] theorem State.setStack_delay_timer (l : List Word) : (s.setStack l).delay_timer = s.delay_timer := rfl
@[simp] theorem State.setStack_sound_timer (l : List Word) : (s.setStack l).sound_timer = s.sound_timer := rfl
@[simp] theorem State.setStack_keyboard (l : List Word) : (s.setStack l).keyboard = s.keyboard := rfl
@[simp] theorem State.setStack_display_memory (l : List Word) : (s.setStack l).display_memory = s.display_memory := rfl
@[simp] theorem State.setStack_rng (l : List Word) : (s.setStack l).rng = s.rng := rfl
@[simp] theorem State.setStack_fault (l : List Word) : (s.setStack l).fault = s.fault := rfl

/-! ### State.push -/

@[simp] theorem State.push_memory (w : Word) : (s.push w).memory = s.memory := rfl
@[simp] theorem State.push_program_counter (w : Word) : (s.push w).program_counter = s.program_counter := rfl
@[simp] theorem State.push_v (w : Word) : (s.push w).v = s.v := rfl
@[simp] theorem State.push_reg_i (w : Word) : (s.push w).reg_i = s.reg_i := rfl
@[simp] theorem State.push_stack (w : Word) : (s.push w).stack = s.stack ++ [w] := rfl
@[simp] theorem State.push_delay_timer (w : Word) : (s.push w).delay_timer = s.delay_timer := rfl
@[simp] theorem State.push_sound_timer (w : Word) : (s.push w).sound_timer = s.sound_timer := rfl
@[simp] theorem State.push_keyboard (w : Word) : (s.push w).keyboard = s.keyboard := rfl
@[simp] theorem State.push_display_memory (w : Word) : (s.push w).display_memory = s.display_memory := rfl
@[simp] theorem State.push_rng (w : Word) : (s.push w).rng = s.rng := rfl
@[simp] theorem State.push_fault (w : Word) : (s.push w).fault = s.fault := rfl

/-! ### State.setVF -/

@[simp] theorem State.setVF_memory (c : Bool) : (s.setVF c).memory = s.memory := rfl
@[simp] theorem State.setVF_program_counter (c : Bool) : (s.setVF c).program_counter = s.program_counter := rfl
@[simp] theorem State.setVF_v (c : Bool) : (s.setVF c).v = s.v.set vf (b2n c) := rfl
@[simp] theorem State.setVF_reg_i (c : Bool) : (s.setVF c).reg_i = s.reg_i := rfl
@[simp] theorem State.setVF_stack (c : Bool) : (s.setVF c).stack = s.stack := rfl
@[simp] theorem State.setVF_delay_timer (c : Bool) : (s.setVF c).delay_timer = s.delay_timer := rfl
@[simp] theorem State.setVF_sound_timer (c : Bool) : (s.setVF c).sound_timer = s.sound_timer := rfl
@[simp] theorem State.setVF_keyboard (c : Bool) : (s.setVF c).keyboard = s.keyboard := rfl
@[simp] theorem State.setVF_display_memory (c : Bool) : (s.setVF c).display_memory = s.display_memory := rfl
@[simp] theorem State.setVF_rng (c : Bool) : (s.setVF c).rng = s.rng := rfl
@[simp] theorem State.setVF_fault (c : Bool) : (s.setVF c).fault = s.fault := rfl

/-! ### Reading registers -/

@[simp] theorem State.getV_setV_self (i : RegIndex) (b : Byte) : (s.setV i b).getV i = b := by
  simp [State.getV]

theorem State.getV_setV_of_ne {i j : RegIndex} (h : i ≠ j) (b : Byte) : (s.setV i b).getV j = s.getV j := by
  simp only [State.getV, State.setV, Fin.getElem_fin]
  exact Vector.getElem_set_ne _ _ (fun hij => h (Fin.ext hij))

theorem State.getV_setV (i j : RegIndex) (b : Byte) :
    (s.setV i b).getV j = if i = j then b else s.getV j := by
  by_cases h : i = j
  · subst h; simp
  · simp [h, State.getV_setV_of_ne]

/-- A state is its eleven fields. -/
theorem State.ext_fields {s t : State} (h1 : s.memory = t.memory) (h2 : s.program_counter = t.program_counter)
    (h3 : s.v = t.v) (h4 : s.reg_i = t.reg_i) (h5 : s.stack = t.stack) (h6 : s.delay_timer = t.delay_timer)
    (h7 : s.sound_timer = t.sound_timer) (h8 : s.keyboard = t.keyboard)
    (h9 : s.display_memory = t.display_memory) (h10 : s.rng = t.rng) (h11 : s.fault = t.fault) : s = t := by
  cases s; cases t; simp_all

end Sys2Proof.Machine
end

