-- ==== Sys2Proof/Laws/Step.lean ====
section
/-! SUPPORT. What an instruction and a step can do, said once: the inversion lemmas that later proofs cite instead of
unfolding the meanings. -/

namespace Sys2Proof.Machine

/-! ### Fetch -/

/-- The fetch succeeds exactly below 0x0FFF, with the two bytes at `program_counter`. -/
theorem State.fetch_of_lt {s : State} (h : s.program_counter.toNat < 0x0FFF) :
    s.fetch = .ok (wordOfBytes (s.memory.read s.program_counter.toNat) (s.memory.read (s.program_counter.toNat + 1))) := by
  have : beyondMemory s.program_counter.toNat 2 = false := by
    simp only [beyondMemory, decide_eq_false_iff_not]; omega
  simp [State.fetch, State.memRead2, this]

/-- The fetch faults exactly from 0x0FFF on. -/
theorem State.fetch_of_ge {s : State} (h : 0x0FFF ≤ s.program_counter.toNat) :
    s.fetch = .error (.outOfBoundsFetch s.program_counter) := by
  have : beyondMemory s.program_counter.toNat 2 = true := by
    simp only [beyondMemory, decide_eq_true_eq]; omega
  simp [State.fetch, State.memRead2, this, State.outOfBounds]

/-- A successful fetch was made below 0x0FFF. -/
theorem State.lt_of_fetch_ok {s : State} {w : Word} (h : s.fetch = .ok w) : s.program_counter.toNat < 0x0FFF := by
  by_contra hn
  rw [State.fetch_of_ge (by omega)] at h
  cases h

/-- Fetch reads memory and `program_counter` only. -/
theorem State.fetch_congr {s t : State} (hm : t.memory = s.memory) (hp : t.program_counter = s.program_counter) {w : Word}
    (h : s.fetch = .ok w) : t.fetch = .ok w := by
  have hlt := State.lt_of_fetch_ok h
  rw [State.fetch_of_lt hlt] at h
  rw [State.fetch_of_lt (hp ▸ hlt), hm, hp, h]

/-! ### The sprite's bytes -/

/-- The rows of a draw lie inside memory. -/
theorem State.spriteBytes_of_inside {s : State} {n : RowCount} (h : n.val = 0 ∨ s.reg_i.toNat + n.val - 1 ≤ 4095) :
    s.spriteBytes n = .ok (s.memory.readBytes s.reg_i.toNat n.val) := by
  have : beyondMemory s.reg_i.toNat n.val = false := by
    simp only [beyondMemory, decide_eq_false_iff_not]; omega
  simp [State.spriteBytes, State.memReadBytes, this]

/-- The rows of a draw reach beyond memory. -/
theorem State.spriteBytes_of_beyond {s : State} {n : RowCount} (h1 : n.val ≥ 1) (h2 : s.reg_i.toNat + n.val - 1 > 4095) :
    s.spriteBytes n = .error (.outOfBoundsSprite s.program_counter s.reg_i) := by
  have : beyondMemory s.reg_i.toNat n.val = true := by
    simp only [beyondMemory, decide_eq_true_eq]; omega
  simp [State.spriteBytes, State.memReadBytes, this, State.outOfBounds]

/-! ### Instructions -/

/-- What a completed draw leaves. -/
def State.drawn (s : State) (x y : RegIndex) (n : RowCount) : State :=
  let c := composite s.display_memory (s.memory.readBytes s.reg_i.toNat n.val) (s.getV x) (s.getV y)
  ((s.setDisplay c.fb).setVF c.collision).advancePc

section
variable (s : State) (x y : RegIndex) (n : RowCount)

@[simp] theorem State.drawn_program_counter : (s.drawn x y n).program_counter = s.program_counter + 2#16 := rfl
@[simp] theorem State.drawn_memory : (s.drawn x y n).memory = s.memory := rfl
@[simp] theorem State.drawn_reg_i : (s.drawn x y n).reg_i = s.reg_i := rfl
@[simp] theorem State.drawn_stack : (s.drawn x y n).stack = s.stack := rfl
@[simp] theorem State.drawn_delay_timer : (s.drawn x y n).delay_timer = s.delay_timer := rfl
@[simp] theorem State.drawn_sound_timer : (s.drawn x y n).sound_timer = s.sound_timer := rfl
@[simp] theorem State.drawn_keyboard : (s.drawn x y n).keyboard = s.keyboard := rfl
@[simp] theorem State.drawn_rng : (s.drawn x y n).rng = s.rng := rfl
@[simp] theorem State.drawn_fault : (s.drawn x y n).fault = s.fault := rfl

theorem State.drawn_display_memory : (s.drawn x y n).display_memory =
    (composite s.display_memory (s.memory.readBytes s.reg_i.toNat n.val) (s.getV x) (s.getV y)).fb := rfl

theorem State.drawn_getV (k : RegIndex) : (s.drawn x y n).getV k =
    if 15 = k then
      b2n (composite s.display_memory (s.memory.readBytes s.reg_i.toNat n.val) (s.getV x) (s.getV y)).collision
    else s.getV k :=
  State.getV_setV (s.setDisplay _) vf k _

end

theorem exec_drawSprite_inside {s : State} {x y : RegIndex} {n : RowCount}
    (h : n.val = 0 ∨ s.reg_i.toNat + n.val - 1 ≤ 4095) : exec (.drawSprite x y n) s = .next (s.drawn x y n) := by
  simp only [exec, execDrawSprite, State.spriteBytes_of_inside h]; rfl

theorem exec_drawSprite_beyond {s : State} {x y : RegIndex} {n : RowCount}
    (h1 : n.val ≥ 1) (h2 : s.reg_i.toNat + n.val - 1 > 4095) :
    exec (.drawSprite x y n) s = .next (s.latch (.outOfBoundsSprite s.program_counter s.reg_i)) := by
  simp only [exec, execDrawSprite, State.spriteBytes_of_beyond h1 h2]; rfl

theorem exec_ret_of_nil {s : State} (h : s.stack = []) :
    exec .ret s = .next (s.latch (.stackUnderflow s.program_counter)) := by
  simp [exec, execReturn, State.pop, h, raise]

theorem exec_ret_of_append {s : State} {l : List Word} {top : Word} (h : s.stack = l ++ [top]) :
    exec .ret s = .next ((s.setStack l).setPc top) := by
  simp [exec, execReturn, State.pop, h, State.endFlow]

theorem exec_skip_of_eq {s : State} {x : RegIndex} {value : Byte} (h : s.getV x = value) :
    exec (.skipIfRegValEqual x value) s = .next s.advancePc.advancePc := by
  simp [exec, execSkipIfRegValEqual, State.equalsOperand, h, State.endRegular]

theorem exec_skip_of_ne {s : State} {x : RegIndex} {value : Byte} (h : s.getV x ≠ value) :
    exec (.skipIfRegValEqual x value) s = .next s.advancePc := by
  simp [exec, execSkipIfRegValEqual, State.equalsOperand, h, State.endRegular]

/-- Every instruction but the ten effective ones only advances (R140). -/
theorem exec_of_not_effective {i : Instr} (h : i.effective = false) (s : State) : exec i s = .next s.advancePc := by
  cases i <;> first | rfl | (simp [Instr.effective] at h)

/-- Everything an instruction can do: one case per effect. -/
theorem exec_cases {i : Instr} {s t : State} (h : exec i s = .next t) :
    (i.effective = false ∧ t = s.advancePc) ∨
    (∃ addr, i = .jump addr ∧ t = s.setPc (addr.setWidth 16)) ∨
    (∃ addr, i = .jumpPlusV0 addr ∧ t = s.setPc (addr.setWidth 16 + (s.getV 0).setWidth 16)) ∨
    (∃ addr, i = .call addr ∧ t = (s.push s.program_counter).setPc (addr.setWidth 16)) ∨
    (∃ l top, i = .ret ∧ s.stack = l ++ [top] ∧ t = (s.setStack l).setPc top) ∨
    (i = .ret ∧ s.stack = [] ∧ t = s.latch (.stackUnderflow s.program_counter)) ∨
    (∃ x value, i = .loadValToReg x value ∧ t = (s.setV x value).advancePc) ∨
    (∃ value, i = .loadValToI value ∧ t = (s.setI (value.setWidth 16)).advancePc) ∨
    (∃ x value, i = .loadRandomAndValToReg x value ∧ t = ((s.setV x (b2n s.rng &&& value)).flipRng).advancePc) ∨
    (∃ x value, i = .addValToReg x value ∧ t = (s.setV x (s.getV x + value)).advancePc) ∨
    (∃ x value, i = .skipIfRegValEqual x value ∧ s.getV x = value ∧ t = s.advancePc.advancePc) ∨
    (∃ x value, i = .skipIfRegValEqual x value ∧ s.getV x ≠ value ∧ t = s.advancePc) ∨
    (∃ x y n, i = .drawSprite x y n ∧ (n.val = 0 ∨ s.reg_i.toNat + n.val - 1 ≤ 4095) ∧ t = s.drawn x y n) ∨
    (∃ x y n, i = .drawSprite x y n ∧ n.val ≥ 1 ∧ s.reg_i.toNat + n.val - 1 > 4095 ∧
      t = s.latch (.outOfBoundsSprite s.program_counter s.reg_i)) := by
  have inj : ∀ {u : State}, exec i s = .next u → t = u := fun hu => by
    rw [h] at hu; exact (Host.Outcome.next.inj hu)
  by_cases he : i.effective = false
  · exact .inl ⟨he, inj (exec_of_not_effective he s)⟩
  refine .inr ?_
  cases i with
  | jump addr => exact .inl ⟨addr, rfl, inj rfl⟩
  | jumpPlusV0 addr => exact .inr (.inl ⟨addr, rfl, inj rfl⟩)
  | call addr => exact .inr (.inr (.inl ⟨addr, rfl, inj rfl⟩))
  | ret =>
    rcases List.eq_nil_or_concat s.stack with hs | ⟨l, top, hs⟩
    · exact .inr (.inr (.inr (.inr (.inl ⟨rfl, hs, inj (exec_ret_of_nil hs)⟩))))
    · rw [List.concat_eq_append] at hs
      exact .inr (.inr (.inr (.inl ⟨l, top, rfl, hs, inj (exec_ret_of_append hs)⟩)))
  | loadValToReg x value => exact .inr (.inr (.inr (.inr (.inr (.inl ⟨x, value, rfl, inj rfl⟩)))))
  | loadValToI value => exact .inr (.inr (.inr (.inr (.inr (.inr (.inl ⟨value, rfl, inj rfl⟩))))))
  | loadRandomAndValToReg x value =>
    exact .inr (.inr (.inr (.inr (.inr (.inr (.inr (.inl ⟨x, value, rfl, inj rfl⟩)))))))
  | addValToReg x value =>
    exact .inr (.inr (.inr (.inr (.inr (.inr (.inr (.inr (.inl ⟨x, value, rfl, inj rfl⟩))))))))
  | skipIfRegValEqual x value =>
    refine .inr (.inr (.inr (.inr (.inr (.inr (.inr (.inr (.inr ?_))))))))
    by_cases hv : s.getV x = value
    · exact .inl ⟨x, value, rfl, hv, inj (exec_skip_of_eq hv)⟩
    · exact .inr (.inl ⟨x, value, rfl, hv, inj (exec_skip_of_ne hv)⟩)
  | drawSprite x y n =>
    refine .inr (.inr (.inr (.inr (.inr (.inr (.inr (.inr (.inr (.inr (.inr ?_))))))))))
    by_cases hn : n.val = 0 ∨ s.reg_i.toNat + n.val - 1 ≤ 4095
    · exact .inl ⟨x, y, n, rfl, hn, inj (exec_drawSprite_inside hn)⟩
    · exact .inr ⟨x, y, n, rfl, by omega, by omega, inj (exec_drawSprite_beyond (by omega) (by omega))⟩
  | _ => simp [Instr.effective] at he

/-! ### Steps -/

theorem step_of_halted {s : State} {f : Fault} (h : s.fault = some f) : step s = .next s := by
  simp [step, h, stayHalted]

theorem step_of_fetch_fault {s : State} (h : s.fault = none) (hp : 0x0FFF ≤ s.program_counter.toNat) :
    step s = .next (s.latch (.outOfBoundsFetch s.program_counter)) := by
  simp [step, h, State.fetch_of_ge hp, raise]

theorem step_of_fetch_ok {s : State} {w : Word} (h : s.fault = none) (hw : s.fetch = .ok w) :
    step s = exec (decode w) s := by
  simp [step, h, hw]

/-- Everything a step can do: stand still, fail the fetch, or execute the fetched word. -/
theorem step_cases {s t : State} (h : step s = .next t) :
    (∃ f, s.fault = some f ∧ t = s) ∨
    (s.fault = none ∧ 0x0FFF ≤ s.program_counter.toNat ∧ t = s.latch (.outOfBoundsFetch s.program_counter)) ∨
    (∃ w, s.fault = none ∧ s.fetch = .ok w ∧ exec (decode w) s = .next t) := by
  cases hf : s.fault with
  | some f => rw [step_of_halted hf] at h; exact .inl ⟨f, rfl, (Host.Outcome.next.inj h).symm⟩
  | none =>
    refine .inr ?_
    by_cases hp : 0x0FFF ≤ s.program_counter.toNat
    · rw [step_of_fetch_fault hf hp] at h; exact .inl ⟨rfl, hp, (Host.Outcome.next.inj h).symm⟩
    · rw [step_of_fetch_ok hf (State.fetch_of_lt (by omega))] at h
      exact .inr ⟨_, rfl, State.fetch_of_lt (by omega), h⟩

/-- Everything a host operation can do, when it is allowed. -/
theorem hostApply_cases {op : HostOp} {h h' : Session} (e : hostApply op h = .next h') :
    (op = .reset ∧ h' = Session.start) ∨
    (∃ rom, op = .loadRom rom ∧ h.phase = .fresh ∧ h' = ⟨h.machine.loadRom rom, .loaded⟩) ∨
    (op = .stepRequest ∧ ∃ t, step h.machine = .next t ∧ h' = ⟨t, .running⟩) := by
  cases op with
  | reset => cases e; exact .inl ⟨rfl, rfl⟩
  | loadRom rom =>
    cases hp : h.phase <;> simp only [hostApply, hp] at e <;> cases e
    exact .inr (.inl ⟨rom, rfl, rfl, rfl⟩)
  | stepRequest =>
    cases hs : step h.machine <;> simp only [hostApply, hs] at e <;> cases e
    exact .inr (.inr ⟨rfl, _, rfl, rfl⟩)

/-- A run goes on from the state its first step answers. -/
theorem core_run_succ {s u : State} (h : step s = .next u) (k : Nat) :
    Sys2Proof.core.run (k + 1) s = Sys2Proof.core.run k u := by
  have : Sys2Proof.core.step s = .next u := h
  simp [Host.Core.run, this]

end Sys2Proof.Machine
end

