-- ==== Sys2Proof/Tests/Slice0.lean ====
section
/-! SUPPORT. Tests of the model. Expected values come from the vectors of spec/95_test_vectors.md (V<n>) or from
the cited rule, worked out by hand. The witnesses at the end show that no hypothesis of an obligation is empty. -/

namespace Sys2Proof.Tests

-- One theorem after the other: each waits for the kernel, and a thread apiece would exhaust the memory.
set_option Elab.async false

open Sys2Proof Sys2Proof.Machine

/-! ### Well-formedness (R74, R82) -/

/-- An ill-formed term for each check: a `SysCall` on a word that rows 1 and 2 own, an `Unknown` on a claimed word. -/
theorem test_illFormed_refused :
    (Instr.sysCall 0x0E0#12).wellFormed = false ∧ (Instr.sysCall 0x0EE#12).wellFormed = false ∧
    (Instr.unknown 0x6123#16).wellFormed = false ∧ (Instr.unknown 0x812E#16).wellFormed = false ∧
    (Instr.unknown 0x5120#16).wellFormed = false ∧ (Instr.unknown 0x9AB0#16).wellFormed = false ∧
    (Instr.unknown 0xE1A1#16).wellFormed = false ∧ (Instr.unknown 0xF165#16).wellFormed = false := by decide

theorem test_wellFormed_accepted :
    (Instr.sysCall 0x0E1#12).wellFormed = true ∧ (Instr.unknown 0x5121#16).wellFormed = true ∧
    (Instr.unknown 0x8128#16).wellFormed = true ∧ (Instr.unknown 0xE100#16).wellFormed = true ∧
    (Instr.unknown 0xF1FF#16).wellFormed = true ∧ Instr.clearScreen.wellFormed = true := by decide

/-! ### Decoding words written out from R77's patterns -/

/-- Rows 1 to 3 (V10 to V12). -/
theorem test_decode_family0 :
    decode 0x00E0#16 = .clearScreen ∧ decode 0x00EE#16 = .ret ∧ decode 0x0000#16 = .sysCall 0x000#12 ∧
    decode 0x00E1#16 = .sysCall 0x0E1#12 ∧ decode 0x00EF#16 = .sysCall 0x0EF#12 ∧
    decode 0x0FFF#16 = .sysCall 0xFFF#12 := by decide

/-- Rows 4, 5, 22 (V13). -/
theorem test_decode_targets :
    decode 0x1ABC#16 = .jump 0xABC#12 ∧ decode 0x2ABC#16 = .call 0xABC#12 ∧
    decode 0xBABC#16 = .jumpPlusV0 0xABC#12 := by decide

/-- Rows 6, 7, 9, 10, 21, 23 (V14, V15, V39). -/
theorem test_decode_immediates :
    decode 0x3A7F#16 = .skipIfRegValEqual 10 0x7F#8 ∧ decode 0x4A7F#16 = .skipIfRegValNotEqual 10 0x7F#8 ∧
    decode 0x6A7F#16 = .loadValToReg 10 0x7F#8 ∧ decode 0x7A7F#16 = .addValToReg 10 0x7F#8 ∧
    decode 0xCA7F#16 = .loadRandomAndValToReg 10 0x7F#8 ∧ decode 0xA7F3#16 = .loadValToI 0x7F3#12 := by decide

/-- Rows 8, 20 and their gaps (V17). -/
theorem test_decode_registerSkips :
    decode 0x5120#16 = .skipIfRegsEqual 1 2 ∧ decode 0x9120#16 = .skipIfRegsNotEqual 1 2 ∧
    decode 0x5121#16 = .unknown 0x5121#16 ∧ decode 0x912F#16 = .unknown 0x912F#16 := by decide

/-- Rows 11 to 19 and the gap (V18, V39). -/
theorem test_decode_family8 :
    decode 0x8120#16 = .loadRegToReg 1 2 ∧ decode 0x8121#16 = .orRegs 1 2 ∧ decode 0x8122#16 = .andRegs 1 2 ∧
    decode 0x8123#16 = .xorRegs 1 2 ∧ decode 0x8124#16 = .addRegToReg 1 2 ∧
    decode 0x8125#16 = .subRegFromReg 1 2 ∧ decode 0x8126#16 = .shiftRight 1 2 ∧
    decode 0x8127#16 = .subRegFromRegReversed 1 2 ∧ decode 0x812E#16 = .shiftLeft 1 2 ∧
    decode 0x8128#16 = .unknown 0x8128#16 ∧ decode 0x812F#16 = .unknown 0x812F#16 := by decide

/-- Row 24 (V16). -/
theorem test_decode_drawSprite :
    decode 0xD12F#16 = .drawSprite 1 2 15 ∧ decode 0xDFE0#16 = .drawSprite 15 14 0 := by decide

/-- Rows 25, 26 and the gap (V19). -/
theorem test_decode_familyE :
    decode 0xE19E#16 = .skipIfKeyPressed 1 ∧ decode 0xE1A1#16 = .skipIfKeyNotPressed 1 ∧
    decode 0xE19F#16 = .unknown 0xE19F#16 ∧ decode 0xE100#16 = .unknown 0xE100#16 := by decide

/-- Rows 27 to 35 and the gap (V19b). -/
theorem test_decode_familyF :
    decode 0xF107#16 = .loadDelayTimerToReg 1 ∧ decode 0xF10A#16 = .waitKeyToReg 1 ∧
    decode 0xF115#16 = .loadRegToDelayTimer 1 ∧ decode 0xF118#16 = .loadRegToSoundTimer 1 ∧
    decode 0xF11E#16 = .addRegToI 1 ∧ decode 0xF129#16 = .loadFontAddrToI 1 ∧ decode 0xF133#16 = .storeBcd 1 ∧
    decode 0xF155#16 = .storeRegsToMem 1 ∧ decode 0xF165#16 = .loadRegsFromMem 1 ∧
    decode 0xF100#16 = .unknown 0xF100#16 ∧ decode 0xF166#16 = .unknown 0xF166#16 := by decide

/-- The words of V4 and V45: the byte at the lower address is the high half (D1). -/
theorem test_byteOrder :
    decode (wordOfBytes 0x65#8 0xAB#8) = .loadValToReg 5 0xAB#8 ∧
    decode (wordOfBytes 0xAB#8 0x65#8) = .loadValToI 0xB65#12 := by decide

/-- The syntax of R82, in the words of program P1. -/
theorem test_assemble :
    assemble [.instruction (.loadValToReg 0 0#8), .instruction (.addValToReg 0 1#8),
      .instruction (.skipIfRegValEqual 0 5#8), .instruction (.jump 0x202#12), .byte 0xFF#8] =
    [0x60#8, 0x00#8, 0x70#8, 0x01#8, 0x30#8, 0x05#8, 0x12#8, 0x02#8, 0xFF#8] := by decide

/-! ### Single steps -/

/-- What one step from `s` leaves of `f`, if it answers a next state. -/
def after {α : Type} (s : State) (f : State → α) : Option α :=
  match step s with
  | .next t => some (f t)
  | .fault _ => none
  | .refused _ => none

/-- From reset, with `v[k] = b`, `reg_i = i` and the word `w` at 0x0200. -/
def oneWord (w : Word) (k : RegIndex := 0) (b : Byte := 0#8) (i : Word := 0#16) : State :=
  ((State.reset.setV k b).setI i).placeWord w

/-- V2: `1300`. -/
theorem test_jump : after (oneWord 0x1300#16) (·.program_counter) = some 0x0300#16 := by decide +kernel

/-- V20(c): `1000` goes into the reserved region. -/
theorem test_jump_zero : after (oneWord 0x1000#16) (·.program_counter) = some 0x0000#16 := by decide +kernel

/-- V21(a). -/
theorem test_jumpPlusV0 :
    after (oneWord 0xB300#16 0 0x04#8) (fun t => (t.program_counter, t.getV 0)) = some (0x0304#16, 0x04#8) := by
  decide +kernel

/-- V21(c): the sum is not reduced modulo 4096. -/
theorem test_jumpPlusV0_beyond :
    after (oneWord 0xBFFF#16 0 0xFF#8) (fun t => (t.program_counter, t.fault)) = some (0x10FE#16, none) := by
  decide +kernel

/-- V22(b): the top is last, and is the address of the `Call`. -/
theorem test_call :
    after (({ State.reset with program_counter := 0x0456#16, stack := [0x0200#16] } : State).placeWord 0x2300#16)
      (fun t => (t.program_counter, t.stack)) = some (0x0300#16, [0x0200#16, 0x0456#16]) := by decide +kernel

/-- V23(a). -/
theorem test_return :
    after (({ State.reset with stack := [0x0200#16, 0x0456#16] } : State).placeWord 0x00EE#16)
      (fun t => (t.program_counter, t.stack)) = some (0x0456#16, [0x0200#16]) := by decide +kernel

/-- V23(b). -/
theorem test_return_underflow :
    after (oneWord 0x00EE#16) (fun t => (t.program_counter, t.stack, t.fault)) =
      some (0x0200#16, [], some (.stackUnderflow 0x0200#16)) := by decide +kernel

/-- V31b. -/
theorem test_sysCall : after (oneWord 0x0123#16) (·.program_counter) = some 0x0202#16 := by decide +kernel

/-- V4. -/
theorem test_loadValToReg :
    after (oneWord 0x65AB#16) (fun t => (t.getV 5, t.program_counter)) = some (0xAB#8, 0x0202#16) := by decide +kernel

/-- V30. -/
theorem test_loadValToI :
    after (oneWord 0xAFFF#16) (fun t => (t.reg_i, t.program_counter)) = some (0x0FFF#16, 0x0202#16) := by decide +kernel

/-- V8, V24: the first execution reads 0 and flips the cursor. -/
theorem test_random_first :
    after (oneWord 0xC0FF#16 0 0x55#8) (fun t => (t.getV 0, t.rng)) = some (0x00#8, true) := by decide +kernel

/-- V8, V24, F3: the second gives 1, not the mask, and flips the cursor back. -/
theorem test_random_second :
    after ({ oneWord 0xC1FF#16 with rng := true } : State) (fun t => (t.getV 1, t.rng)) = some (0x01#8, false) := by
  decide +kernel

/-- V5, F5: the sum wraps and VF is not a carry. -/
theorem test_addValToReg :
    after (oneWord 0x7001#16 0 0xFF#8) (fun t => (t.getV 0, t.getV 15, t.fault)) = some (0x00#8, 0x00#8, none) := by
  decide +kernel

/-- V28: VF as the destination receives the sum. -/
theorem test_addValToReg_vf :
    after (oneWord 0x7F01#16 15 0x01#8) (·.getV 15) = some 0x02#8 := by decide +kernel

/-- V7. -/
theorem test_skip_taken : after (oneWord 0x3207#16 2 0x07#8) (·.program_counter) = some 0x0204#16 := by decide +kernel

/-- V7. -/
theorem test_skip_notTaken :
    after (oneWord 0x3207#16 2 0x06#8) (·.program_counter) = some 0x0202#16 := by decide +kernel

/-- V6's state before its first draw: the byte 0xFF at 0x020C, `v[0] = 60`, `D011` at 0x0200. -/
def beforeDraw : State :=
  (((State.reset.setMemory (Memory.write [] 0x020C 0xFF#8)).setV 0 60#8).setI 0x020C#16).placeWord 0xD011#16

/-- The pixels 60 to 63 and 0 to 3, and how many are lit. -/
def topRow (t : State) : List Bool × Nat :=
  ([60, 61, 62, 63, 0, 1, 2, 3].map (fun i => t.display_memory.pixels.getD i false),
    t.display_memory.pixels.count true)

/-- V6: the eight pixels of row 0, wrapped, and no collision. -/
theorem test_draw_wraps :
    after beforeDraw (fun t => (topRow t, t.getV 15, t.program_counter)) =
      some ((List.replicate 8 true, 8), 0x00#8, 0x0202#16) := by decide +kernel

/-- V6: the same sprite again clears exactly those pixels and reports the collision. -/
theorem test_draw_again :
    after ({ beforeDraw with display_memory := (composite Framebuffer.blank [0xFF#8] 60#8 0#8).fb } : State)
      (fun t => (topRow t, t.getV 15)) = some ((List.replicate 8 false, 0), 0x01#8) := by decide +kernel

/-- V32: two rows, wrapping on both axes; the leftmost pixel is bit 7. -/
theorem test_composite_bothAxes :
    let c := composite Framebuffer.blank [0x81#8, 0x42#8] 0x3C#8 0x1F#8
    ([2044, 1987, 61, 2].map (fun i => c.fb.pixels.getD i false), c.fb.pixels.count true, c.collision) =
      (List.replicate 4 true, 4, false) := by decide +kernel

/-- V35: VF is read as the column before it is overwritten. -/
theorem test_draw_vfColumn :
    after ((((State.reset.setMemory (Memory.write [] 0x020A 0x80#8)).setV 15 5#8).setV 1 2#8 |>.setI 0x020A#16).placeWord
        0xDF11#16)
      (fun t => (t.display_memory.pixels.getD 133 false, t.display_memory.pixels.count true, t.getV 15)) =
      some (true, 1, 0x00#8) := by decide +kernel

/-- V33 and V37(b): `n = 0` and a last byte at 0x0FFF both complete. -/
theorem test_draw_atTheEnd :
    after (oneWord 0xD010#16 0 0#8 0x0FFF#16) (fun t => (t.fault, t.program_counter)) = some (none, 0x0202#16) ∧
    after (oneWord 0xD011#16 0 0#8 0x0FFF#16) (fun t => (t.fault, t.program_counter)) = some (none, 0x0202#16) := by
  decide +kernel

/-- V37(a), (d): a sprite reaching past 0x0FFF faults and nothing else happens. -/
theorem test_draw_pastTheEnd :
    after (oneWord 0xD012#16 0 0#8 0x0FFF#16) (fun t => (t.fault, t.program_counter)) =
      some (some (.outOfBoundsSprite 0x0200#16 0x0FFF#16), 0x0200#16) ∧
    after (oneWord 0xD01F#16 0 0#8 0x0FF2#16) (·.fault) =
      some (some (.outOfBoundsSprite 0x0200#16 0x0FF2#16)) := by decide +kernel

/-- V39's words: those of the no-op shapes and of four gaps. -/
def sweepWords : List Word :=
  [0x4100#16, 0x5120#16, 0x8120#16, 0x8121#16, 0x8122#16, 0x8123#16, 0x8124#16, 0x8125#16, 0x8126#16, 0x8127#16,
   0x812E#16, 0x9120#16, 0xE19E#16, 0xE1A1#16, 0xF107#16, 0xF10A#16, 0xF115#16, 0xF118#16] ++
  [0xF11E#16, 0xF129#16, 0xF133#16, 0xF155#16, 0xF165#16, 0x8128#16, 0x5121#16, 0xE100#16, 0xF1FF#16, 0x00E0#16]

/-- V39's state, with `w` at 0x0200. -/
def sweep (w : Word) : State :=
  (((State.reset.setV 1 0x0F#8).setV 2 0xF0#8).setI 0x0300#16).placeWord w

/-- V39: each of the words only advances. -/
theorem test_noop_sweep :
    (sweepWords.map fun w => after (sweep w) fun t =>
      (t.program_counter, [t.getV 1, t.getV 2, t.getV 15, t.delay_timer, t.sound_timer], t.reg_i)) =
    List.replicate 28 (some (0x0202#16, [0x0F#8, 0xF0#8, 0x00#8, 0x00#8, 0x00#8], 0x0300#16)) := by decide +kernel

/-- V38: `ClearScreen` does not clear. -/
theorem test_clearScreen :
    after ({ oneWord 0x00E0#16 with display_memory := (composite Framebuffer.blank [0xFF#8] 60#8 0#8).fb } : State)
      topRow = some (List.replicate 8 true, 8) := by decide +kernel

/-! ### Fetch, faults, the ROM load and the host -/

/-- V40: an empty memory reads as `SysCall`. -/
theorem test_step_reset :
    after State.reset (fun t => (t.program_counter, t.fault)) = some (0x0202#16, none) := by decide +kernel

/-- V41: the highest fetch that succeeds, and the first that does not. -/
theorem test_fetch_bounds :
    after (State.reset.setPc 0x0FFE#16) (fun t => (t.program_counter, t.fault)) = some (0x1000#16, none) ∧
    after (State.reset.setPc 0x0FFF#16) (fun t => (t.program_counter, t.fault)) =
      some (0x0FFF#16, some (.outOfBoundsFetch 0x0FFF#16)) := by decide +kernel

/-- V42: an odd address is an ordinary one. -/
theorem test_fetch_odd :
    after ((State.reset.loadRom [0x12#8, 0x03#8, 0x00#8, 0x65#8, 0xAB#8, 0x12#8, 0x05#8]).setPc 0x0203#16)
      (fun t => (t.getV 5, t.program_counter)) = some (0xAB#8, 0x0205#16) := by decide +kernel

/-- V43: 3585 bytes are rejected, memory stays empty. -/
theorem test_rom_tooLong (rom : List Byte) (h : rom.length = 3585) :
    State.reset.loadRom rom = { State.reset with fault := some (.resourceOverflow 3585) } := by
  have h' : ¬ rom.length ≤ Config.maxRomLength := h ▸ by decide
  simp only [State.loadRom, h]
  rfl

/-- V43: 3584 bytes load. -/
theorem test_rom_full (rom : List Byte) (h : rom.length = 3584) : (State.reset.loadRom rom).fault = none := by
  have h' : rom.length ≤ Config.maxRomLength := h ▸ by decide
  simp only [State.loadRom, if_pos h']
  rfl

/-- V44: halted stays halted, and a reset leaves the halt. -/
theorem test_halt :
    after ({ State.reset with fault := some (.stackUnderflow 0x0200#16) } : State)
      (fun t => (t.program_counter, t.fault)) = some (0x0200#16, some (.stackUnderflow 0x0200#16)) := by decide +kernel

/-- V6, V33: one presentation for a completed draw; V37(a): none for a faulting one; V38: none for `00E0`. -/
theorem test_outputs :
    (stepOutputs false (oneWord 0xD010#16 0 0#8 0x0FFF#16)).length = 1 ∧
    (stepOutputs false (oneWord 0xD012#16 0 0#8 0x0FFF#16)).length = 0 ∧
    (stepOutputs true (oneWord 0x00E0#16)).length = 1 ∧ (stepOutputs false (oneWord 0x00E0#16)).length = 0 := by
  decide +kernel

/-- A table row's word is placed at 0x0200, most significant byte first. -/
theorem test_withFetchWord :
    (State.reset.withFetchWord 16 0x65AB).memory = [(0x200, 0x65#8), (0x201, 0xAB#8)] ∧
    decodeTableWord 16 0x65AB = some (.loadValToReg 5 0xAB#8) := by decide +kernel

/-! ### Witnesses: every hypothesis of an obligation is met somewhere, at the ends of its range where it has one -/

/-- What a run of `k` steps from `s` leaves of `f`, if it answers a next state. -/
def afterRun {α : Type} (k : Nat) (s : State) (f : State → α) : Option α :=
  match Sys2Proof.core.run k s with
  | .next t => some (f t)
  | .fault _ => none
  | .refused _ => none

/-- What the host's operations leave of `f`, if all are allowed. -/
def afterHost {α : Type} (ops : List HostOp) (h : Session) (f : Session → α) : Option α :=
  match hostRun ops h with
  | .next t => some (f t)
  | .fault _ => none
  | .refused _ => none

/-- A core halted by an empty stack. -/
def haltedCore : State := { State.reset with fault := some (.stackUnderflow 0x0200#16) }

theorem witness_DecodeOfEncodeIsIdentity :
    (Instr.drawSprite 15 0 15).wellFormed = true ∧ (Instr.sysCall 0xFFF#12).wellFormed = true ∧
    (Instr.unknown 0xFFFF#16).wellFormed = true := by decide

theorem witness_DecoderIsFirstMatchOfTable :
    (∃ r₁ ∈ decodeTable, ∃ r₂ ∈ decodeTable, r₁.priority < r₂.priority ∧ r₂.priority ≠ 36 ∧
      r₁.hits 0x00E0#16 = true ∧ r₂.hits 0x00E0#16 = true) ∧
    (∃ r₁ ∈ decodeTable, ∃ r₂ ∈ decodeTable, r₁.priority < r₂.priority ∧ r₂.priority ≠ 36 ∧
      r₁.hits 0x00EE#16 = true ∧ r₂.hits 0x00EE#16 = true) := by decide +kernel

/-- One word of each gap. -/
theorem witness_UnknownIsExactlyTheGaps :
    [0x500F#16, 0x9001#16, 0x8008#16, 0x800F#16, 0xE09F#16, 0xF008#16, 0xFFFF#16].map
      (fun w => (decode w).shapeClass) = List.replicate 7 .unknown := by decide

/-- At the highest address an instruction can be fetched from. -/
theorem witness_StepRunsTheDecodedInstruction :
    let s := (State.reset.setPc 0x0FFE#16).placeWord 0x1200#16
    s.fault = none ∧ s.program_counter.toNat + 1 ≤ 4095 ∧ s.memory.read s.program_counter.toNat = 0x12#8 ∧
    s.memory.read (s.program_counter.toNat + 1) = 0x00#8 ∧ (Instr.jump 0x200#12).wellFormed = true ∧
    bytesOfWord (encode (.jump 0x200#12)) = [0x12#8, 0x00#8] := by decide +kernel

theorem witness_PlacedWordIsTheNextInstruction : State.reset.memory.wf = true := by decide

theorem witness_HaltedCoreTakesNoStep : haltedCore.fault ≠ none := by decide

/-- Every operation but a reset answers a next state at a halted machine, a ROM load included. -/
theorem witness_OnlyResetLeavesTheHalt :
    (⟨haltedCore, .fresh⟩ : Session).machine.fault ≠ none ∧
    afterHost [.stepRequest] ⟨haltedCore, .fresh⟩ (·.phase) = some .running ∧
    afterHost [.loadRom []] ⟨haltedCore, .fresh⟩ (·.phase) = some .loaded := by decide +kernel

/-- Each of the three conditions, and none of them. -/
theorem witness_FatalConditionsAriseExactlyWhenStated :
    after (oneWord 0x00EE#16) (fun t => t.fault.map Fault.code) = some (some 1) ∧
    after (State.reset.setPc 0x0FFF#16) (fun t => t.fault.map Fault.code) = some (some 2) ∧
    after (oneWord 0xD012#16 0 0#8 0x0FFF#16) (fun t => t.fault.map Fault.code) = some (some 3) ∧
    after (oneWord 0xD011#16 0 0#8 0x0FFF#16) (fun t => t.fault.map Fault.code) = some none := by decide +kernel

theorem witness_FaultingStepChangesOnlyTheLatch :
    (oneWord 0x00EE#16).fault = none ∧
    after (oneWord 0x00EE#16) (·.fault) = some (some (.stackUnderflow 0x0200#16)) := by decide +kernel

theorem witness_FaultRecordsHoldTheirFields :
    State.reset.stack = [] ∧ (State.reset.setPc 0x0FFF#16).fault = none ∧
    (State.reset.setPc 0x0FFF#16).program_counter.toNat ≥ 0x0FFF ∧
    (2 : RowCount).val ≥ 1 ∧ (State.reset.setI 0x0FFF#16).reg_i.toNat + (2 : RowCount).val - 1 > 4095 ∧
    (List.replicate 3585 (0x01#8 : Byte)).length > 3584 := by
  rw [List.length_replicate]; decide

/-- Each clause, the skip both ways, at the highest address that can be fetched. -/
theorem witness_ProgramCounterFollowsThePolicy :
    let s := (State.reset.setPc 0x0FFE#16).setStack [0x0300#16]
    s.fault = none ∧ s.program_counter.toNat ≤ 0x0FFE ∧ s.getV 0 = 0x00#8 ∧ s.getV 0 ≠ 0x01#8 ∧
    (Instr.skipIfRegValEqual 0 0x00#8).shapeClass ≠ .flowControl ∧
    ∀ i ∈ [Instr.jump 0#12, .jumpPlusV0 0xFFF#12, .call 0#12, .ret, .skipIfRegValEqual 0 0x00#8,
        .skipIfRegValEqual 0 0x01#8, .clearScreen],
      ∃ t, exec i s = .next t ∧ t.fault = none := by
  refine ⟨by decide, by decide, by decide, by decide, by decide, ?_⟩
  simp only [List.forall_mem_cons]
  exact ⟨⟨_, rfl, by decide⟩, ⟨_, rfl, by decide⟩, ⟨_, rfl, by decide⟩, ⟨_, rfl, by decide⟩, ⟨_, rfl, by decide⟩,
    ⟨_, rfl, by decide⟩, ⟨_, rfl, by decide⟩, by simp⟩

theorem witness_NoStepChangesMemory :
    (∃ t, exec (.storeRegsToMem 15) State.reset = .next t) ∧
    after (oneWord 0xFF55#16) (·.program_counter) = some 0x0202#16 :=
  ⟨⟨_, rfl⟩, by decide +kernel⟩

/-- A register changed by each of the four writers. -/
theorem witness_RegistersChangeOnlyAsDestinations :
    (∃ t, exec (.loadValToReg 3 7#8) State.reset = .next t ∧ t.getV 3 ≠ State.reset.getV 3) ∧
    (∃ t, exec (.addValToReg 3 7#8) State.reset = .next t ∧ t.getV 3 ≠ State.reset.getV 3) ∧
    (∃ t, exec (.loadRandomAndValToReg 3 1#8) State.reset.flipRng = .next t ∧
      t.getV 3 ≠ State.reset.flipRng.getV 3) ∧
    (∃ t, exec (.drawSprite 0 0 0) (State.reset.setV 15 1#8) = .next t ∧
      t.getV 15 ≠ (State.reset.setV 15 1#8).getV 15) :=
  ⟨⟨_, rfl, by decide⟩, ⟨_, rfl, by decide⟩, ⟨_, rfl, by decide⟩, ⟨_, rfl, by decide +kernel⟩⟩

theorem witness_IndexRegisterIsOnlyLoaded :
    (∃ t, exec (.loadValToI 0xFFF#12) State.reset = .next t) ∧ (∃ t, exec (.addRegToI 0) State.reset = .next t) ∧
    afterRun 1 (State.reset.loadRom [0xAF#8, 0xFF#8]) (·.reg_i) = some 0x0FFF#16 :=
  ⟨⟨_, rfl⟩, ⟨_, rfl⟩, by decide +kernel⟩

theorem witness_TimersAndKeysAreInert :
    after (oneWord 0xF10A#16) (·.program_counter) = some 0x0202#16 := by decide +kernel

/-- After one execution the cursor is `true`, after two it is `false`; and one that starts `true` ends `false`. -/
theorem witness_RandomCursorCountsItsUses :
    (∃ t, exec (.loadRandomAndValToReg 0 0#8) State.reset = .next t) ∧ (∃ t, exec .ret State.reset = .next t) ∧
    afterRun 1 (State.reset.loadRom [0xC0#8, 0x01#8, 0xC0#8, 0x01#8]) (·.rng) = some true ∧
    afterRun 2 (State.reset.loadRom [0xC0#8, 0x01#8, 0xC0#8, 0x01#8]) (·.rng) = some false ∧
    afterRun 1 (oneWord 0xC001#16).flipRng (·.rng) = some false :=
  ⟨⟨_, rfl⟩, ⟨_, rfl⟩, by decide +kernel, by decide +kernel, by decide +kernel⟩

/-- The stack grows, shrinks and stays. -/
theorem witness_StackChangesOnlyByCallAndReturn :
    (∃ t, exec (.call 0#12) State.reset = .next t ∧ t.stack = [0x0200#16]) ∧
    (∃ t, exec .ret (State.reset.setStack [0x0300#16]) = .next t ∧ t.stack = []) ∧
    (∃ t, exec .ret State.reset = .next t ∧ t.stack = []) :=
  ⟨⟨_, rfl, by decide⟩, ⟨_, rfl, by decide⟩, ⟨_, rfl, by decide⟩⟩

theorem witness_DisplayIsReachedOnlyByDrawSprite :
    (∃ t, exec .clearScreen State.reset = .next t) ∧ ∃ t, exec (.drawSprite 0 1 15) State.reset = .next t :=
  ⟨⟨_, rfl⟩, ⟨_, exec_drawSprite_inside (by decide)⟩⟩

/-- The self-jump at 0x0200, and the target 0xFFF. -/
theorem witness_JumpSetsTheProgramCounter :
    let s := oneWord 0x1200#16
    s.fault = none ∧ s.fetch = .ok (encode (.jump 0x200#12)) ∧ s.program_counter = (0x200#12).setWidth 16 ∧
    (0xFFF#12 : Address) = 0xFFF#12 := ⟨rfl, rfl, rfl, rfl⟩

/-- The least and the greatest sum that the next fetch rejects. -/
theorem witness_JumpPlusV0AddsTheRegister :
    State.reset.fault = none ∧ (0xFFF#12 : Address).toNat + (State.reset.getV 0).toNat ≥ 0x0FFF ∧
    (∃ t, exec (.jumpPlusV0 0xFFF#12) State.reset = .next t) ∧
    (0xFFF#12 : Address).toNat + ((State.reset.setV 0 0xFF#8).getV 0).toNat = 0x10FE :=
  ⟨rfl, by decide, ⟨_, rfl⟩, by decide⟩

theorem witness_ReturnResumesAtThePoppedAddress :
    (State.reset.setStack [0x0200#16, 0x0456#16]).stack = [0x0200#16] ++ [0x0456#16] ∧ State.reset.stack = [] :=
  ⟨rfl, rfl⟩

theorem witness_SysCallDoesNothing :
    (nibble1 0x0FFF#16 = 0x0 ∧ 0x0FFF#16 ≠ 0x00E0#16 ∧ 0x0FFF#16 ≠ 0x00EE#16) ∧
    (nibble1 0x00E1#16 = 0x0 ∧ 0x00E1#16 ≠ 0x00E0#16 ∧ 0x00E1#16 ≠ 0x00EE#16) := by decide

/-- For `LoadValToReg`, `LoadRandomAndValToReg` and `AddValToReg`: a register other than the destination. -/
theorem witness_LoadValToRegWritesTheImmediate : (3 : RegIndex) ≠ 15 := by decide

theorem witness_SkipIfRegValEqualSkipsOneWord :
    State.reset.getV 15 = 0x00#8 ∧ State.reset.getV 15 ≠ 0xFF#8 := by decide

/-- The last address a sprite of 15 rows can start at, and the next one; a sprite of no rows anywhere. -/
theorem witness_DrawSpriteCompletesInsideMemory :
    ((State.reset.setI 0x0FF1#16).reg_i.toNat + (15 : RowCount).val - 1 ≤ 4095) ∧ (0 : RowCount).val = 0 ∧
    ¬ ((15 : RowCount).val = 0 ∨ (State.reset.setI 0x0FF2#16).reg_i.toNat + (15 : RowCount).val - 1 ≤ 4095) := by
  decide

/-- A pixel inside the sprite (its bottom right one, wrapped) and one outside. -/
theorem witness_DrawSpriteXorsEveryPixelOnce :
    ((2 : RowCount).val = 0 ∨ beforeDraw.reg_i.toNat + (2 : RowCount).val - 1 ≤ 4095) ∧
    (⟨67, by decide⟩ : PixelIndex).val =
      ((beforeDraw.getV 0).toNat + 7) % 64 + 64 * (((beforeDraw.getV 1).toNat + 1) % 32) ∧
    (∀ xx yy : Nat, xx < 8 → yy < (1 : RowCount).val → (⟨67, by decide⟩ : PixelIndex).val ≠
      ((beforeDraw.getV 0).toNat + xx) % 64 + 64 * (((beforeDraw.getV 1).toNat + yy) % 32)) := by
  have h0 : (beforeDraw.getV 0).toNat = 60 := by decide +kernel
  have h1 : (beforeDraw.getV 1).toNat = 0 := by decide +kernel
  refine ⟨by decide +kernel, by rw [h0, h1], ?_⟩
  intro xx yy hx hy
  rw [h0, h1]
  have hn : (1 : RowCount).val = 1 := by decide
  show 67 ≠ _
  omega

/-- Two draws of the byte 0xFF, which has set pixels, neither coordinate being VF. -/
theorem witness_DrawingTwiceRestoresTheDisplay :
    (0 : RegIndex) ≠ 15 ∧ (1 : RegIndex) ≠ 15 ∧
    ((1 : RowCount).val = 0 ∨ beforeDraw.reg_i.toNat + (1 : RowCount).val - 1 ≤ 4095) ∧
    (beforeDraw.memory.read (beforeDraw.reg_i.toNat + 0)).getLsbD (7 - 0) = true ∧
    ∃ t u, exec (.drawSprite 0 1 1) beforeDraw = .next t ∧ exec (.drawSprite 0 1 1) t = .next u := by
  have h : (1 : RowCount).val = 0 ∨ beforeDraw.reg_i.toNat + (1 : RowCount).val - 1 ≤ 4095 := by decide +kernel
  exact ⟨by decide, by decide, h, by decide +kernel, _, _, exec_drawSprite_inside h, exec_drawSprite_inside h⟩

theorem witness_DrawOfNoRowsClearsVF :
    ∃ t, exec (.drawSprite 0 1 0) (State.reset.setI 0xFFFF#16) = .next t ∧ t.fault = none :=
  ⟨_, exec_drawSprite_inside (by decide), rfl⟩

/-- A completed draw, a completed step that is no draw, a faulting step. -/
theorem witness_OutputsOfAStep :
    (oneWord 0xD010#16).fault = none ∧ (oneWord 0xD010#16).fetch = .ok 0xD010#16 ∧
    decode 0xD010#16 = .drawSprite 0 1 0 ∧ after (oneWord 0xD010#16) (·.fault) = some none ∧
    after (oneWord 0x00E0#16) (·.fault) = some none ∧
    after (oneWord 0x00EE#16) (·.fault) = some (some (.stackUnderflow 0x0200#16)) :=
  ⟨rfl, rfl, by decide, by decide +kernel, by decide +kernel, by decide +kernel⟩

theorem witness_OnlyTenPatternsHaveAnEffect :
    (oneWord 0x4100#16).fault = none ∧ (oneWord 0x4100#16).fetch = .ok 0x4100#16 ∧ 0x4100#16 ≠ 0x00EE#16 ∧
    nibble1 0x4100#16 ∉ [0x1, 0x2, 0x3, 0x6, 0x7, 0xA, 0xB, 0xC, 0xD] := ⟨rfl, rfl, by decide, by decide⟩

/-- The longest ROM that loads, the shortest that does not, and an address on either side of a loaded one. -/
theorem witness_RomLoadCopiesOrIsRejected :
    State.reset.memory.wf = true ∧ (List.replicate 3584 (0x01#8 : Byte)).length ≤ 3584 ∧
    (List.replicate 3585 (0x01#8 : Byte)).length > 3584 ∧ (0 < [(0x01#8 : Byte)].length) ∧
    ((511 < 512 ∨ 512 + [(0x01#8 : Byte)].length ≤ 511) ∧ (513 < 512 ∨ 512 + [(0x01#8 : Byte)].length ≤ 513)) := by
  simp only [List.length_replicate, List.length_cons, List.length_nil]; decide

theorem witness_HostOperationsFollowTheBootOrder :
    Session.start.phase = .fresh ∧ (⟨State.reset, .loaded⟩ : Session).phase ≠ .fresh := by decide

theorem witness_AssembledProgramIsFetchedBack :
    (∀ i ∈ [Instr.loadValToReg 0 0#8, .jump 0x202#12], i.wellFormed = true) ∧
    2 * [Instr.loadValToReg 0 0#8, .jump 0x202#12].length ≤ 3584 ∧
    [Instr.loadValToReg 0 0#8, .jump 0x202#12][1]? = some (.jump 0x202#12) := by decide

/-- The last word and the first that is beyond; the last byte range and the first that is beyond; no bytes. -/
theorem witness_MemReadChecksTheBounds :
    4094 + 2 - 1 ≤ 4095 ∧ 4095 + 2 - 1 > 4095 ∧ (1 ≥ 1 ∧ 4096 + 1 - 1 > 4095) ∧ 4095 + 1 - 1 ≤ 4095 ∧
    ((0 : Nat) = 0 ∨ 5000 + 0 - 1 ≤ 4095) := by decide

theorem reset_keyboard_up : ∀ k : Fin 16, State.reset.keyboard[k] = false := by decide

/-- Zero registers and a program counter at most 0x10FE meet the invariant. -/
theorem inv_setPc_reset (pc : Word) (h : pc.toNat ≤ 0x10FE) : (State.reset.setPc pc).Inv where
  memory_wf := rfl
  reserved := fun _ _ => rfl
  reg_i_le := Nat.zero_le _
  pc_le := h
  stack_le := fun _ h => by cases h
  delay_timer_zero := rfl
  sound_timer_zero := rfl
  keyboard_up := reset_keyboard_up
  fault_pc := fun _ h => by cases h

/-- At reset, and at the highest program counter the invariant allows. -/
theorem witness_StepKeepsTheInvariant :
    ((State.reset.setPc 0x0200#16).Inv ∧ after (State.reset.setPc 0x0200#16) (·.program_counter) = some 0x0202#16) ∧
    ((State.reset.setPc 0x10FE#16).Inv ∧ after (State.reset.setPc 0x10FE#16) (·.program_counter) = some 0x10FE#16) :=
  ⟨⟨inv_setPc_reset _ (by decide), by decide +kernel⟩, ⟨inv_setPc_reset _ (by decide), by decide +kernel⟩⟩

/-- A session after reset, and one under way; then runs of operations that are all allowed. -/
theorem witness_HostCannotBreakTheInvariant :
    (⟨State.reset.setPc 0x0200#16, .fresh⟩ : Session).Inv ∧ (⟨State.reset.setPc 0x10FE#16, .running⟩ : Session).Inv ∧
    afterHost [.loadRom []] ⟨State.reset.setPc 0x0200#16, .fresh⟩ (·.phase) = some .loaded ∧
    afterHost [.stepRequest] ⟨State.reset.setPc 0x10FE#16, .running⟩ (·.phase) = some .running ∧
    afterHost [.loadRom [0x00#8, 0xEE#8], .stepRequest, .stepRequest] Session.start (·.phase) = some .running ∧
    afterHost [.stepRequest, .reset, .loadRom [0x00#8]] Session.start (·.phase) = some .loaded :=
  ⟨⟨inv_setPc_reset _ (by decide), fun _ => rfl⟩, ⟨inv_setPc_reset _ (by decide), fun h => by cases h⟩,
    by decide +kernel, by decide +kernel, by decide +kernel, by decide +kernel⟩

theorem witness_RunsEndInTheFaultedState :
    afterRun 1 (oneWord 0x00EE#16) (·.fault) = some (some (.stackUnderflow 0x0200#16)) := by decide +kernel

end Sys2Proof.Tests
end

