-- ==== Sys2Proof/Proofs/FieldFrames.lean ====
section
/-! What an instruction, a step and a run read and leave unchanged, and the obligations of `spec/10_state.md` about the
index register (R28), the random cursor (R37) and the reset values (R35). -/

namespace Sys2Proof.Machine

/-! ### The fields most instructions neither read nor write -/

/-- `program_counter`, `v`, `stack` and `fault` of `s`, and every other field of `u`. -/
def State.withRestOf (s u : State) : State :=
  { u with program_counter := s.program_counter, v := s.v, stack := s.stack, fault := s.fault }

@[simp] theorem State.withRestOf_reg_i (s u : State) : (s.withRestOf u).reg_i = u.reg_i := rfl
@[simp] theorem State.withRestOf_rng (s u : State) : (s.withRestOf u).rng = u.rng := rfl

/-- Three instructions aside, an instruction neither reads nor writes any field but `program_counter`, `v`, `stack` and
`fault`: it acts on those four alike whatever the others hold. -/
theorem exec_withRestOf_or {i : Instr} {s t : State} (h : exec i s = .next t) :
    (∀ u, exec i (s.withRestOf u) = .next (t.withRestOf u)) ∨
    (∃ value, i = .loadValToI value) ∨
    (∃ x value, i = .loadRandomAndValToReg x value) ∨
    (∃ x y n, i = .drawSprite x y n) := by
  obtain ⟨he, rfl⟩ | ⟨addr, rfl, rfl⟩ | ⟨addr, rfl, rfl⟩ | ⟨addr, rfl, rfl⟩ | ⟨l, top, rfl, hs, rfl⟩ |
    ⟨rfl, hs, rfl⟩ | ⟨x, value, rfl, rfl⟩ | ⟨value, rfl, -⟩ | ⟨x, value, rfl, -⟩ | ⟨x, value, rfl, rfl⟩ |
    ⟨x, value, rfl, hv, rfl⟩ | ⟨x, value, rfl, hv, rfl⟩ | ⟨x, y, n, rfl, -⟩ | ⟨x, y, n, rfl, -⟩ := exec_cases h
  · exact .inl fun _ => exec_of_not_effective he _
  · exact .inl fun _ => rfl
  · exact .inl fun _ => rfl
  · exact .inl fun _ => rfl
  · exact .inl fun u => exec_ret_of_append (s := s.withRestOf u) hs
  · exact .inl fun u => exec_ret_of_nil (s := s.withRestOf u) hs
  · exact .inl fun _ => rfl
  · exact .inr (.inl ⟨value, rfl⟩)
  · exact .inr (.inr (.inl ⟨x, value, rfl⟩))
  · exact .inl fun _ => rfl
  · exact .inl fun u => exec_skip_of_eq (s := s.withRestOf u) hv
  · exact .inl fun u => exec_skip_of_ne (s := s.withRestOf u) hv
  · exact .inr (.inr (.inr ⟨x, y, n, rfl⟩))
  · exact .inr (.inr (.inr ⟨x, y, n, rfl⟩))

/-- An instruction that acts alike whatever the other fields hold leaves them as they are. -/
theorem eq_withRestOf_self {i : Instr} {s t : State} (h : exec i s = .next t)
    (hu : ∀ u, exec i (s.withRestOf u) = .next (t.withRestOf u)) : t = t.withRestOf s :=
  Host.Outcome.next.inj (h.symm.trans (hu s))

/-- A draw either completes or faults. -/
theorem exec_drawSprite_cases {x y : RegIndex} {n : RowCount} {s t : State} (h : exec (.drawSprite x y n) s = .next t) :
    ((n.val = 0 ∨ s.reg_i.toNat + n.val - 1 ≤ 4095) ∧ t = s.drawn x y n) ∨
    ((n.val ≥ 1 ∧ s.reg_i.toNat + n.val - 1 > 4095) ∧ t = s.latch (.outOfBoundsSprite s.program_counter s.reg_i)) := by
  by_cases hn : n.val = 0 ∨ s.reg_i.toNat + n.val - 1 ≤ 4095
  · exact .inl ⟨hn, Host.Outcome.next.inj (h.symm.trans (exec_drawSprite_inside hn))⟩
  · have hb : n.val ≥ 1 ∧ s.reg_i.toNat + n.val - 1 > 4095 := by omega
    exact .inr ⟨hb, Host.Outcome.next.inj (h.symm.trans (exec_drawSprite_beyond hb.1 hb.2))⟩

/-! ### Runs -/

/-- A run of `k + 1` steps is one step and a run of `k`. -/
theorem step_of_core_run_succ {k : Nat} {s t : State} (h : Sys2Proof.core.run (k + 1) s = .next t) :
    ∃ u, step s = .next u ∧ Sys2Proof.core.run k u = .next t := by
  cases hs : step s with
  | next u => exact ⟨u, rfl, core_run_succ hs k ▸ h⟩
  | fault f =>
    have hs' : Sys2Proof.core.step s = .fault f := hs
    simp [Host.Core.run, hs'] at h
  | refused r =>
    have hs' : Sys2Proof.core.step s = .refused r := hs
    simp [Host.Core.run, hs'] at h

/-- What every step keeps, every run keeps. -/
theorem core_run_keeps {P : State → Prop} (hstep : ∀ s t, step s = .next t → P s → P t) {k : Nat} {s t : State}
    (h : Sys2Proof.core.run k s = .next t) (hs : P s) : P t := by
  induction k generalizing s with
  | zero => cases h; exact hs
  | succ k ih =>
    obtain ⟨u, hu, hrun⟩ := step_of_core_run_succ h
    exact ih hrun (hstep s u hu hs)

/-! ### The index register (R28) -/

theorem exec_loadValToI_reg_i {value : Address} {s t : State} (h : exec (.loadValToI value) s = .next t) :
    t.reg_i = value.setWidth 16 := by
  cases h; rfl

theorem exec_keeps_reg_i {i : Instr} {s t : State} (h : exec i s = .next t) (hi : ∀ value, i ≠ .loadValToI value) :
    t.reg_i = s.reg_i := by
  obtain hu | ⟨value, rfl⟩ | ⟨x, value, rfl⟩ | ⟨x, y, n, rfl⟩ := exec_withRestOf_or h
  · rw [eq_withRestOf_self h hu, State.withRestOf_reg_i]
  · exact absurd rfl (hi value)
  · cases h; rfl
  · obtain ⟨-, rfl⟩ | ⟨-, rfl⟩ := exec_drawSprite_cases h <;> rfl

/-- `DrawSprite` aside, an instruction does the same whatever the index register holds. -/
theorem exec_ignores_reg_i {i : Instr} {s t : State} (h : exec i s = .next t) (hi : ∀ x y n, i ≠ .drawSprite x y n)
    (a : Word) : ∃ t', exec i { s with reg_i := a } = .next t' ∧ { t' with reg_i := t.reg_i } = t := by
  obtain hu | ⟨value, rfl⟩ | ⟨x, value, rfl⟩ | ⟨x, y, n, rfl⟩ := exec_withRestOf_or h
  · exact ⟨_, hu { s with reg_i := a }, by rw [eq_withRestOf_self h hu]; rfl⟩
  · cases h; exact ⟨_, rfl, rfl⟩
  · cases h; exact ⟨_, rfl, rfl⟩
  · exact absurd rfl (hi x y n)

/-- The bound of R28: a zero-extended 12-bit field is at most 0xFFF, and no other value is ever written. -/
theorem exec_keeps_reg_i_le {i : Instr} {s t : State} (h : exec i s = .next t) (hs : s.reg_i.toNat ≤ 0x0FFF) :
    t.reg_i.toNat ≤ 0x0FFF := by
  by_cases hi : ∃ value, i = .loadValToI value
  · obtain ⟨value, rfl⟩ := hi
    rw [exec_loadValToI_reg_i h, BitVec.toNat_setWidth_of_le (by decide)]
    have := value.isLt
    omega
  · rw [exec_keeps_reg_i h (not_exists.1 hi)]; exact hs

theorem step_keeps_reg_i_le (s t : State) (h : step s = .next t) (hs : s.reg_i.toNat ≤ 0x0FFF) :
    t.reg_i.toNat ≤ 0x0FFF := by
  obtain ⟨_, -, rfl⟩ | ⟨-, -, rfl⟩ | ⟨_, -, -, he⟩ := step_cases h
  · exact hs
  · exact hs
  · exact exec_keeps_reg_i_le he hs

@[simp] theorem State.loadRom_reg_i (s : State) (rom : List Byte) : (s.loadRom rom).reg_i = s.reg_i := by
  unfold State.loadRom; split <;> rfl

/-- Settles O17: the frame and the independence hold per instruction, the bound by induction over the run. -/
theorem indexRegisterIsOnlyLoaded : Obligations.IndexRegisterIsOnlyLoaded := by
  refine ⟨fun i s t h => ⟨?_, exec_keeps_reg_i h, exec_ignores_reg_i h⟩, fun rom k t h => ?_⟩
  · rintro value rfl
    exact exec_loadValToI_reg_i h
  · exact core_run_keeps step_keeps_reg_i_le h (by simp [State.reset])

/-! ### The random cursor (R37) -/

theorem exec_loadRandomAndValToReg_rng {x : RegIndex} {value : Byte} {s t : State}
    (h : exec (.loadRandomAndValToReg x value) s = .next t) : t.rng = !s.rng := by
  cases h; rfl

theorem exec_keeps_rng {i : Instr} {s t : State} (h : exec i s = .next t)
    (hi : ∀ x value, i ≠ .loadRandomAndValToReg x value) : t.rng = s.rng := by
  obtain hu | ⟨value, rfl⟩ | ⟨x, value, rfl⟩ | ⟨x, y, n, rfl⟩ := exec_withRestOf_or h
  · rw [eq_withRestOf_self h hu, State.withRestOf_rng]
  · cases h; rfl
  · exact absurd rfl (hi x value)
  · obtain ⟨-, rfl⟩ | ⟨-, rfl⟩ := exec_drawSprite_cases h <;> rfl

/-- `LoadRandomAndValToReg` aside, an instruction does the same whatever the cursor holds. -/
theorem exec_ignores_rng {i : Instr} {s t : State} (h : exec i s = .next t)
    (hi : ∀ x value, i ≠ .loadRandomAndValToReg x value) (c : Bool) :
    exec i { s with rng := c } = .next { t with rng := c } := by
  obtain hu | ⟨value, rfl⟩ | ⟨x, value, rfl⟩ | ⟨x, y, n, rfl⟩ := exec_withRestOf_or h
  · rw [eq_withRestOf_self h hu]; exact hu { s with rng := c }
  · cases h; rfl
  · exact absurd rfl (hi x value)
  · obtain ⟨hn, rfl⟩ | ⟨hn, rfl⟩ := exec_drawSprite_cases h
    · exact exec_drawSprite_inside (s := { s with rng := c }) hn
    · exact exec_drawSprite_beyond (s := { s with rng := c }) hn.1 hn.2

/-- The executions of a run are those of its first step and those of the rest. -/
theorem randomCount_succ {s u : State} (h : step s = .next u) (k : Nat) :
    randomCount (k + 1) s = randomCount 1 s + randomCount k u := by
  simp [randomCount, h]

theorem randomCount_one_of_halted {s : State} {f : Fault} (h : s.fault = some f) : randomCount 1 s = 0 := by
  simp [randomCount, step_of_halted h, h]

theorem randomCount_one_of_fetch_fault {s : State} (h : s.fault = none) (hp : 0x0FFF ≤ s.program_counter.toNat) :
    randomCount 1 s = 0 := by
  simp [randomCount, step_of_fetch_fault h hp, h, State.fetch_of_ge hp]

theorem randomCount_one_of_random {s u : State} {w : Word} {x : RegIndex} {value : Byte} (h : step s = .next u)
    (hf : s.fault = none) (hw : s.fetch = .ok w) (hd : decode w = .loadRandomAndValToReg x value) :
    randomCount 1 s = 1 := by
  simp [randomCount, h, hf, hw, hd]

theorem randomCount_one_of_not_random {s u : State} {w : Word} (h : step s = .next u) (hf : s.fault = none)
    (hw : s.fetch = .ok w) (hd : ∀ x value, decode w ≠ .loadRandomAndValToReg x value) : randomCount 1 s = 0 := by
  -- `hd` is what leaves only the last arm of the match on `decode w`
  simp only [randomCount, h, hf, hw]

/-- Parity of a natural number, spelt with the library's `Nat.bodd`. -/
theorem decide_mod_two_eq_bodd (n : Nat) : decide (n % 2 = 1) = n.bodd := by
  rw [Nat.mod_two_of_bodd]; cases n.bodd <;> rfl

/-- One step changes the cursor exactly when it executes `LoadRandomAndValToReg`. -/
theorem step_rng {s t : State} (h : step s = .next t) : t.rng = (s.rng ^^ (randomCount 1 s).bodd) := by
  obtain ⟨f, hf, rfl⟩ | ⟨hf, hp, rfl⟩ | ⟨w, hf, hw, he⟩ := step_cases h
  · simp [randomCount_one_of_halted hf]
  · simp [randomCount_one_of_fetch_fault hf hp]
  · by_cases hd : ∃ x value, decode w = .loadRandomAndValToReg x value
    · obtain ⟨x, value, hd⟩ := hd
      rw [randomCount_one_of_random h hf hw hd, exec_loadRandomAndValToReg_rng (hd ▸ he)]
      simp
    · simp only [not_exists] at hd
      rw [randomCount_one_of_not_random h hf hw hd, exec_keeps_rng he hd]
      simp

/-- A run changes the cursor exactly when an odd number of its steps execute `LoadRandomAndValToReg`. -/
theorem core_run_rng {k : Nat} {s t : State} (h : Sys2Proof.core.run k s = .next t) :
    t.rng = (s.rng ^^ (randomCount k s).bodd) := by
  induction k generalizing s with
  | zero => cases h; simp [randomCount]
  | succ k ih =>
    obtain ⟨u, hu, hrun⟩ := step_of_core_run_succ h
    calc t.rng = (u.rng ^^ (randomCount k u).bodd) := ih hrun
      _ = (s.rng ^^ (randomCount (k + 1) s).bodd) := by
        rw [step_rng hu, randomCount_succ hu k, Nat.bodd_add, Bool.xor_assoc]

@[simp] theorem State.loadRom_rng (s : State) (rom : List Byte) : (s.loadRom rom).rng = s.rng := by
  unfold State.loadRom; split <;> rfl

/-- Settles O19: the flip and the independence hold per instruction, the count by induction over the run; after reset
and a ROM load the cursor is `false`. -/
theorem randomCursorCountsItsUses : Obligations.RandomCursorCountsItsUses := by
  refine ⟨fun i s t h => ⟨?_, fun hi => ⟨exec_keeps_rng h hi, exec_ignores_rng h hi⟩⟩, fun s t k h => ?_,
    fun rom k t h => ?_⟩
  · rintro x value rfl
    exact exec_loadRandomAndValToReg_rng h
  · rw [decide_mod_two_eq_bodd]; exact core_run_rng h
  · rw [decide_mod_two_eq_bodd, core_run_rng h]; simp [State.reset]

/-! ### Reset (R35) -/

/-- Settles O39: each field is read off the reset state. -/
theorem resetLeavesTheStatedValues : Obligations.ResetLeavesTheStatedValues := by
  refine ⟨fun _ => rfl, rfl, fun i => ?_, rfl, rfl, rfl, rfl, fun k => ?_, Framebuffer.get_blank, rfl, rfl⟩
  · simp [State.getV, State.reset]
  · simp [State.reset]

end Sys2Proof.Machine
end

