-- ==== Sys2Proof/Proofs/EngineStep.lean ====
section
/-! That an instruction and a step always answer a next state (R106), and where the next instruction is fetched
(R103): the obligations of `spec/40_engine_step.md`. -/

namespace Sys2Proof.Machine

/-! ### Totality (R106) -/

/-- Three instructions branch, and each branch answers a state; every other one has a single effect. -/
theorem exec_answers_next (i : Instr) (s : State) : ∃ t, exec i s = .next t := by
  cases i with
  | ret =>
    obtain hs | ⟨l, top, hs⟩ := List.eq_nil_or_concat' s.stack
    · exact ⟨_, exec_ret_of_nil hs⟩
    · exact ⟨_, exec_ret_of_append hs⟩
  | skipIfRegValEqual x value =>
    by_cases hv : s.getV x = value
    · exact ⟨_, exec_skip_of_eq hv⟩
    · exact ⟨_, exec_skip_of_ne hv⟩
  | drawSprite x y n =>
    by_cases hn : n.val = 0 ∨ s.reg_i.toNat + n.val - 1 ≤ 4095
    · exact ⟨_, exec_drawSprite_inside hn⟩
    · exact ⟨_, exec_drawSprite_beyond (by omega) (by omega)⟩
  | _ => exact ⟨_, rfl⟩

/-- A halted core, a failed fetch and an executed instruction all answer a state. -/
theorem step_answers_next (s : State) : ∃ t, step s = .next t := by
  cases hf : s.fault with
  | some f => exact ⟨s, step_of_halted hf⟩
  | none =>
    by_cases hp : 0x0FFF ≤ s.program_counter.toNat
    · exact ⟨_, step_of_fetch_fault hf hp⟩
    · rw [step_of_fetch_ok hf (State.fetch_of_lt (by omega))]
      exact exec_answers_next _ s

/-- Settles O10: by the branches of an instruction, then those of a step. -/
theorem everyStepAnswersANextState : Obligations.EveryStepAnswersANextState :=
  ⟨step_answers_next, exec_answers_next⟩

/-! ### The next fetch address (R103) -/

/-- A `Return` that does not fault goes to the top of the stack. -/
theorem exec_ret_program_counter {s t : State} (h : exec .ret s = .next t) (ht : t.fault = none) :
    s.stack.getLast? = some t.program_counter := by
  obtain hs | ⟨l, top, hs⟩ := List.eq_nil_or_concat' s.stack
  · rw [exec_ret_of_nil hs] at h
    cases h
    cases ht
  · rw [exec_ret_of_append hs] at h
    cases h
    simp [hs]

/-- A skip that is taken advances twice. -/
theorem exec_skip_taken_program_counter {x : RegIndex} {value : Byte} {s t : State}
    (h : exec (.skipIfRegValEqual x value) s = .next t) (hv : s.getV x = value) :
    t.program_counter = s.program_counter + 2#16 + 2#16 := by
  rw [exec_skip_of_eq hv] at h
  cases h; rfl

/-- FlowControl instructions and taken skips aside, an instruction that does not fault advances once. -/
theorem exec_advances_program_counter {i : Instr} {s t : State} (h : exec i s = .next t) (ht : t.fault = none)
    (hflow : i.shapeClass ≠ .flowControl) (hskip : ∀ x value, i = .skipIfRegValEqual x value → s.getV x ≠ value) :
    t.program_counter = s.program_counter + 2#16 := by
  obtain ⟨-, rfl⟩ | ⟨addr, rfl, -⟩ | ⟨addr, rfl, -⟩ | ⟨addr, rfl, -⟩ | ⟨l, top, rfl, -⟩ | ⟨rfl, -⟩ |
    ⟨x, value, -, rfl⟩ | ⟨value, -, rfl⟩ | ⟨x, value, -, rfl⟩ | ⟨x, value, -, rfl⟩ | ⟨x, value, hi, hv, -⟩ |
    ⟨x, value, -, -, rfl⟩ | ⟨x, y, n, -, -, rfl⟩ | ⟨x, y, n, -, -, -, rfl⟩ := exec_cases h
  -- no effect but the advance
  · rfl
  -- the four FlowControl shapes, `Return` with its fault
  · exact absurd rfl hflow
  · exact absurd rfl hflow
  · exact absurd rfl hflow
  · exact absurd rfl hflow
  · exact absurd rfl hflow
  -- the register and index loads
  · rfl
  · rfl
  · rfl
  · rfl
  -- the skip, taken and not taken
  · exact absurd hv (hskip x value hi)
  · rfl
  -- the draw, completed and faulting
  · rfl
  · cases ht

/-- Settles O14: the targets are read off the FlowControl instructions' effects; the advances do not wrap below
0x0FFF. -/
theorem programCounterFollowsThePolicy : Obligations.ProgramCounterFollowsThePolicy := by
  intro i s t _ h ht
  refine ⟨?_, ?_, ?_, ?_, fun hflow hpc => ⟨?_, fun hskip => ?_⟩⟩
  · rintro addr rfl
    cases h; rfl
  · rintro addr rfl
    cases h; rfl
  · rintro addr rfl
    cases h; rfl
  · rintro rfl
    exact exec_ret_program_counter h ht
  · rintro x value rfl hv
    have := exec_skip_taken_program_counter h hv
    bv_omega
  · have := exec_advances_program_counter h ht hflow hskip
    bv_omega

end Sys2Proof.Machine
end

