-- ==== Sys2Proof/Proofs/FlowControl.lean ====
section
/-! What `Call` and `Return` do to the stack and the program counter, and that the second undoes the first (R112,
R113): the obligations of `spec/41_flow_control.md`. -/

namespace Sys2Proof.Machine

/-- The state a `Call` answers: the one arm of the dispatch, its meaning unfolded (R112). -/
theorem exec_call (addr : Address) (s : State) :
    exec (.call addr) s = .next ((s.push s.program_counter).setPc (addr.setWidth 16)) := rfl

/-- The top of the stack after a `Call` is the address of the `Call`, and popping it leaves the stack of before; so a
`Return` restores both fields the `Call` wrote. -/
theorem exec_ret_of_called (addr : Address) (s : State) :
    exec .ret ((s.push s.program_counter).setPc (addr.setWidth 16)) = .next s := by
  have hs : ((s.push s.program_counter).setPc (addr.setWidth 16)).stack = s.stack ++ [s.program_counter] := by
    rw [State.setPc_stack, State.push_stack]
  exact exec_ret_of_append hs

/-- Settles O24: the push and the jump of `exec_call` are the two field updates. -/
theorem callPushesItsOwnAddress : Obligations.CallPushesItsOwnAddress :=
  exec_call

/-- Settles O25: by whether the stack is empty, and by `Return` undoing the `Call` before it. -/
theorem returnResumesAtThePoppedAddress : Obligations.ReturnResumesAtThePoppedAddress :=
  ⟨fun _ _ _ => exec_ret_of_append, fun _ => exec_ret_of_nil,
    fun addr s => ⟨_, exec_call addr s, exec_ret_of_called addr s⟩⟩

end Sys2Proof.Machine
end

