-- ==== Sys2Proof/Proofs/RegularEffective.lean ====
section
/-! The regular instructions with an effect, but for the index load and the draw, and `SysCall` (R119, R120, R122 to
R124): the obligations of `spec/42_regular_effective.md`. -/

namespace Sys2Proof.Machine

/-! ### `SysCall` (R119) -/

/-- The fallback of family 0 is reached when both exact patterns before it fail. -/
theorem decode_family0_fallback {w : Word} (h0 : nibble1 w = 0x0) (hclear : w ≠ 0x00E0#16) (hret : w ≠ 0x00EE#16) :
    decode w = .sysCall (fieldAddr w) :=
  calc decode w = decodeFamily0 w := by simp only [decode, h0]
    _ = .sysCall (fieldAddr w) := by rw [decodeFamily0, if_neg hclear, if_neg hret]

/-- Settles O26: `SysCall` is not an effective shape, so it only advances; the words are family 0's fallback. -/
theorem sysCallDoesNothing : Obligations.SysCallDoesNothing :=
  ⟨fun _ => exec_of_not_effective rfl, fun _ => decode_family0_fallback⟩

/-! ### Writing one register (R120, R122, R123) -/

/-- A state whose register file is that of `s` with one entry replaced: what each register then reads. -/
theorem State.getV_of_v_eq_set {s t : State} {x : RegIndex} {b : Byte} (h : t.v = s.v.set x b) :
    t.getV x = b ∧ ∀ k, k ≠ x → t.getV k = s.getV k := by
  have hget (k : RegIndex) : t.getV k = (s.setV x b).getV k := by rw [State.getV, h]; rfl
  constructor
  · rw [hget, State.getV_setV_self]
  · intro k hk
    rw [hget, State.getV_setV_of_ne s hk.symm]

/-- The state `LoadValToReg` answers: its arm of the dispatch, the meaning unfolded (R120). -/
theorem exec_loadValToReg (x : RegIndex) (value : Byte) (s : State) :
    exec (.loadValToReg x value) s = .next (s.setV x value).advancePc := rfl

/-- Settles O27: the immediate is the byte written. -/
theorem loadValToRegWritesTheImmediate : Obligations.LoadValToRegWritesTheImmediate :=
  fun x value s => ⟨_, exec_loadValToReg x value s, rfl, State.getV_of_v_eq_set rfl⟩

/-- `b2n` as a mask lets bit 0 through, or nothing. -/
theorem b2n_and (c : Bool) (value : Byte) : b2n c &&& value = if c then value &&& 0x01#8 else 0x00#8 := by
  cases c
  · exact BitVec.zero_and
  · exact BitVec.and_comm _ _

/-- A masked cursor is 1 where the cursor and bit 0 of the mask both are, and 0 everywhere else. -/
theorem b2n_and_cases (c : Bool) (value : Byte) :
    b2n c &&& value = 0x00#8 ∨ (b2n c &&& value = 0x01#8 ∧ c = true ∧ value.getLsbD 0 = true) := by
  rw [b2n_and]
  cases c
  · exact .inl rfl
  · rw [if_pos rfl, BitVec.and_one_eq_setWidth_ofBool_getLsbD]
    cases value.getLsbD 0
    · exact .inl rfl
    · exact .inr ⟨rfl, rfl, rfl⟩

/-- The state `LoadRandomAndValToReg` answers: its arm of the dispatch, the meaning unfolded (R122). -/
theorem exec_loadRandomAndValToReg (x : RegIndex) (value : Byte) (s : State) :
    exec (.loadRandomAndValToReg x value) s = .next ((s.setV x (b2n s.rng &&& value)).flipRng).advancePc := rfl

/-- Settles O29: the masked cursor of `b2n_and` is the byte written, and `b2n_and_cases` its two values. -/
theorem loadRandomMasksTheCursor : Obligations.LoadRandomMasksTheCursor := by
  intro x value s
  obtain ⟨hx, hframe⟩ := State.getV_of_v_eq_set (s := s)
    (t := ((s.setV x (b2n s.rng &&& value)).flipRng).advancePc) rfl
  refine ⟨_, exec_loadRandomAndValToReg x value s, ?_, ?_, hframe⟩
  · rw [← b2n_and]; rfl
  · rw [hx]; exact b2n_and_cases s.rng value

/-- The state `AddValToReg` answers: its arm of the dispatch, the meaning unfolded (R123). -/
theorem exec_addValToReg (x : RegIndex) (value : Byte) (s : State) :
    exec (.addValToReg x value) s = .next (s.setV x (s.getV x + value)).advancePc := rfl

/-- Settles O30: the sum of two bytes is the byte written, and a byte's addition wraps. -/
theorem addValToRegWraps : Obligations.AddValToRegWraps := by
  intro x value s
  obtain ⟨hx, hframe⟩ := State.getV_of_v_eq_set (s := s) (t := (s.setV x (s.getV x + value)).advancePc) rfl
  refine ⟨_, exec_addValToReg x value s, rfl, ?_, hframe⟩
  calc _ = (s.getV x + value).toNat := congrArg BitVec.toNat hx
    _ = ((s.getV x).toNat + value.toNat) % 256 := BitVec.toNat_add _ _

/-! ### The skip (R124) -/

/-- Two advances by 2 are one by 4, modulo 2^16 like each of them. -/
theorem State.advancePc_advancePc (s : State) : s.advancePc.advancePc = s.setPc (s.program_counter + 4#16) :=
  congrArg s.setPc (BitVec.add_assoc s.program_counter 2#16 2#16)

/-- Settles O31: a taken skip advances twice, one not taken once. -/
theorem skipIfRegValEqualSkipsOneWord : Obligations.SkipIfRegValEqualSkipsOneWord := by
  refine fun x value s => ⟨fun h => ?_, exec_skip_of_ne⟩
  rw [exec_skip_of_eq h, State.advancePc_advancePc]; rfl

end Sys2Proof.Machine
end

