-- ==== Sys2Proof/Proofs/NoOpShapes.lean ====
section
/-! That the instructions without an effect only advance and present nothing (R140): the obligation of
`spec/44_noop_shapes.md`. -/

namespace Sys2Proof.Machine

/-- `DrawSprite` aside, an untraced instruction has no output, whether or not it faulted (R136). -/
theorem execOutputs_of_ne_drawSprite {i : Instr} (h : ∀ x y n, i ≠ .drawSprite x y n) (t : State) :
    execOutputs false i t = [] := by
  unfold execOutputs
  split
  -- the step faulted
  · rfl
  -- it did not: the one arm with a presentation is excluded
  · split
    · exact absurd rfl (h _ _ _)
    · rfl

/-- `DrawSprite` is one of the ten effective shapes. -/
theorem Instr.ne_drawSprite_of_not_effective {i : Instr} (h : i.effective = false) (x y : RegIndex) (n : RowCount) :
    i ≠ .drawSprite x y n := by
  rintro rfl
  cases h

/-- Settles O37: each of the twenty-six shapes is not effective, which is all that `exec_of_not_effective` asks; and the
one shape that presents is effective. -/
theorem noOpShapesOnlyAdvance : Obligations.NoOpShapesOnlyAdvance := by
  intro s x y value addr word
  refine ⟨s.advancePc, rfl,
    fun i hi => execOutputs_of_ne_drawSprite (Instr.ne_drawSprite_of_not_effective hi) s.advancePc, ?_⟩
  and_intros <;> exact exec_of_not_effective rfl s

end Sys2Proof.Machine
end

