-- ==== Sys2Proof/Proofs/Decoder.lean ====
section
/-! Decoding and encoding as inverses, the decoder as R74's first match of R77's table, and the words without a shape
or without an effect: the obligations of `spec/30_encoding.md`. -/

namespace Sys2Proof

/-! ### A word put together again from its fields (R76) -/

theorem formNNN_of_nibble1 {w : Word} {op : BitVec 4} (h : nibble1 w = op.toNat) : formNNN op (fieldAddr w) = w := by
  conv_rhs => rw [word_eq_formNNN w, h, BitVec.ofNat_toNat, BitVec.setWidth_eq]

theorem formXKK_of_fields {w : Word} {op : BitVec 4} {value : Byte} (h : nibble1 w = op.toNat)
    (hv : (fieldValue w).toNat = value.toNat) : formXKK op (fieldX w) value = w := by
  conv_rhs => rw [word_eq_formXKK w, h, BitVec.ofNat_toNat, BitVec.setWidth_eq, BitVec.eq_of_toNat_eq hv]

theorem formXYN_of_fields {w : Word} {op n : BitVec 4} (h : nibble1 w = op.toNat) (hn : nibble4 w = n.toNat) :
    formXYN op (fieldX w) (fieldY w) n = w := by
  conv_rhs => rw [word_eq_formXYN w, h, hn, BitVec.ofNat_toNat, BitVec.ofNat_toNat, BitVec.setWidth_eq,
    BitVec.setWidth_eq]

theorem nibble4_lt (w : Word) : nibble4 w < 16 := by
  rw [nibble4_eq]; exact Nat.mod_lt _ (by decide)

/-! ### What the decoder answers stands for the word -/

/-- `i` is well formed and `w` is its word. -/
def Instr.StandsFor (i : Instr) (w : Word) : Prop := i.wellFormed = true ∧ encode i = w

/-- `Unknown` carries its word whole. -/
theorem unknown_standsFor {w : Word} (h : unclaimedWord w = true) : (Instr.unknown w).StandsFor w := ⟨h, rfl⟩

theorem decodeFamily0_standsFor {w : Word} (h : nibble1 w = 0x0) : (decodeFamily0 w).StandsFor w := by
  unfold decodeFamily0
  split
  · next hw => exact ⟨rfl, hw.symm⟩
  next hclear =>
  split
  · next hw => exact ⟨rfl, hw.symm⟩
  next hret =>
  have hw : formNNN 0x0#4 (fieldAddr w) = w := formNNN_of_nibble1 h
  refine ⟨?_, hw⟩
  simp only [Instr.wellFormed, sysCallAddress, Bool.and_eq_true, bne_iff_ne]
  constructor <;> intro ha <;> rw [ha] at hw
  · exact hclear hw.symm
  · exact hret hw.symm

theorem decodeFamily8_standsFor {w : Word} (h : nibble1 w = 0x8) : (decodeFamily8 w).StandsFor w := by
  unfold decodeFamily8
  split
  case h_10 =>
    have hn := nibble4_lt w
    simp only [imp_false] at *
    refine unknown_standsFor ?_
    simp only [unclaimedWord, h, Bool.or_eq_true, beq_iff_eq]
    omega
  all_goals exact ⟨rfl, formXYN_of_fields h ‹_›⟩

theorem decodeFamilyE_standsFor {w : Word} (h : nibble1 w = 0xE) : (decodeFamilyE w).StandsFor w := by
  unfold decodeFamilyE
  split
  case h_3 => exact unknown_standsFor (by simp_all [unclaimedWord])
  all_goals exact ⟨rfl, formXKK_of_fields h ‹_›⟩

theorem decodeFamilyF_standsFor {w : Word} (h : nibble1 w = 0xF) : (decodeFamilyF w).StandsFor w := by
  unfold decodeFamilyF
  split
  case h_10 => exact unknown_standsFor (by simp_all [unclaimedWord])
  all_goals exact ⟨rfl, formXKK_of_fields h ‹_›⟩

/-- Family by family; in families 5 and 9 the last nibble decides. -/
theorem decode_standsFor (w : Word) : (decode w).StandsFor w := by
  unfold decode
  split
  case h_1 h => exact decodeFamily0_standsFor h
  case h_2 h => exact ⟨rfl, formNNN_of_nibble1 h⟩
  case h_3 h => exact ⟨rfl, formNNN_of_nibble1 h⟩
  case h_4 h => exact ⟨rfl, formXKK_of_fields h rfl⟩
  case h_5 h => exact ⟨rfl, formXKK_of_fields h rfl⟩
  case h_6 h =>
    split
    · next hn => exact ⟨rfl, formXYN_of_fields h hn⟩
    · next hn => exact unknown_standsFor (by simp [unclaimedWord, h, hn])
  case h_7 h => exact ⟨rfl, formXKK_of_fields h rfl⟩
  case h_8 h => exact ⟨rfl, formXKK_of_fields h rfl⟩
  case h_9 h => exact decodeFamily8_standsFor h
  case h_10 h =>
    split
    · next hn => exact ⟨rfl, formXYN_of_fields h hn⟩
    · next hn => exact unknown_standsFor (by simp [unclaimedWord, h, hn])
  case h_11 h => exact ⟨rfl, formNNN_of_nibble1 h⟩
  case h_12 h => exact ⟨rfl, formNNN_of_nibble1 h⟩
  case h_13 h => exact ⟨rfl, formXKK_of_fields h rfl⟩
  case h_14 h => exact ⟨rfl, formXYN_of_fields h rfl⟩
  case h_15 h => exact decodeFamilyE_standsFor h
  case h_16 h => exact decodeFamilyF_standsFor h
  case h_17 =>
    -- a nibble is below 16
    have hlt := w.isLt
    have h1 := nibble1_eq w
    simp only [imp_false] at *
    omega

theorem encode_decode (w : Word) : encode (decode w) = w := (decode_standsFor w).2

/-- Settles O3: `decode_standsFor`, both halves. -/
theorem encodeOfDecodeIsIdentity : Obligations.EncodeOfDecodeIsIdentity := decode_standsFor

/-! ### `Unknown` and the gaps (R78) -/

/-- The word of a shape lies in no gap. -/
theorem unclaimedWord_encode {i : Instr} (h : i.shapeClass ≠ .unknown) : unclaimedWord (encode i) = false := by
  cases i with
  | unknown word => exact absurd rfl h
  | clearScreen => decide
  | ret => decide
  | _ => simp [encode, unclaimedWord]

theorem Instr.eq_unknown_encode {i : Instr} (h : i.shapeClass = .unknown) : i = .unknown (encode i) := by
  cases i with
  | unknown word => rfl
  | _ => cases h

theorem decode_of_shapeClass_unknown {w : Word} (h : (decode w).shapeClass = .unknown) : decode w = .unknown w := by
  conv_rhs => rw [← encode_decode w]
  exact Instr.eq_unknown_encode h

theorem shapeClass_decode_eq_unknown_iff (w : Word) : (decode w).shapeClass = .unknown ↔ unclaimedWord w = true := by
  obtain ⟨hwf, he⟩ := decode_standsFor w
  constructor
  · intro h
    rw [decode_of_shapeClass_unknown h] at hwf
    exact hwf
  · intro h
    by_contra hn
    rw [← he, unclaimedWord_encode hn] at h
    cases h

theorem unclaimedWord_iff_gaps (w : Word) : unclaimedWord w = true ↔
    (nibble1 w = 0x5 ∧ nibble4 w ≠ 0) ∨ (nibble1 w = 0x9 ∧ nibble4 w ≠ 0) ∨
    (nibble1 w = 0x8 ∧ nibble4 w ∈ [0x8, 0x9, 0xA, 0xB, 0xC, 0xD, 0xF]) ∨
    (nibble1 w = 0xE ∧ (fieldValue w).toNat ∉ [0x9E, 0xA1]) ∨
    (nibble1 w = 0xF ∧ (fieldValue w).toNat ∉ [0x07, 0x0A, 0x15, 0x18, 0x1E, 0x29, 0x33, 0x55, 0x65]) := by
  simp only [unclaimedWord]
  split <;> simp_all [or_assoc, and_assoc]

/-! ### Decoding an encoding (R82) -/

/-- The two addresses that rows 1 and 2 own aside, family 0 is `SysCall`. -/
theorem decode_formNNN_zero {addr : Address} (h : sysCallAddress addr = true) :
    decode (formNNN 0x0#4 addr) = .sysCall addr := by
  simp only [sysCallAddress, Bool.and_eq_true, bne_iff_ne] at h
  obtain ⟨hclear, hret⟩ := h
  have hne {lit : Word} (hlit : addr ≠ fieldAddr lit) : formNNN 0x0#4 addr ≠ lit :=
    fun he => hlit (by rw [← he, fieldAddr_formNNN])
  rw [Machine.decode_family0_fallback (nibble1_formNNN _ _) (hne hclear) (hne hret), fieldAddr_formNNN]

/-- The simp set of `Laws/Decode.lean` reads every field back; `SysCall` and `Unknown` need their well-formedness. -/
theorem decode_encode {i : Instr} (h : i.wellFormed = true) : decode (encode i) = i := by
  cases i with
  | sysCall addr => exact decode_formNNN_zero h
  | unknown word => exact decode_of_shapeClass_unknown ((shapeClass_decode_eq_unknown_iff word).2 h)
  | clearScreen => decide
  | ret => decide
  | _ => simp [encode, decode, decodeFamily8, decodeFamilyE, decodeFamilyF]

/-- Settles O2: by the cases of `decode_encode`. -/
theorem decodeOfEncodeIsIdentity : Obligations.DecodeOfEncodeIsIdentity := fun _ => decode_encode

/-- Settles O1: the eighteen words are decoded. -/
theorem writtenWordsDecode : Obligations.WrittenWordsDecode := by
  unfold Obligations.WrittenWordsDecode
  decide

/-! ### What each mask of the table tests (R77) -/

theorem and_F000_eq_iff {w p : Word} (hp : p.toNat % 4096 = 0) :
    w &&& 0xF000#16 = p ↔ nibble1 w = p.toNat / 4096 := by
  rw [← BitVec.toNat_inj, and_F000_toNat]; omega

theorem and_F00F_eq_iff {w p : Word} (hp : p.toNat / 16 % 256 = 0) :
    w &&& 0xF00F#16 = p ↔ nibble1 w = p.toNat / 4096 ∧ nibble4 w = p.toNat % 16 := by
  have := nibble4_lt w
  rw [← BitVec.toNat_inj, and_F00F_toNat]; omega

theorem and_F0FF_eq_iff {w p : Word} (hp : p.toNat / 256 % 16 = 0) :
    w &&& 0xF0FF#16 = p ↔ nibble1 w = p.toNat / 4096 ∧ (fieldValue w).toNat = p.toNat % 256 := by
  have := (fieldValue w).isLt
  rw [← BitVec.toNat_inj, and_F0FF_toNat]; omega

theorem and_FFFF_eq_iff {w p : Word} : w &&& 0xFFFF#16 = p ↔ w = p := by
  rw [show 0xFFFF#16 = BitVec.allOnes 16 by decide, BitVec.and_allOnes]

/-! ### The row of an instruction (R77) -/

/-- The constructors of `Instr` stand in the order of the table. -/
theorem Instr.ctorIdx_lt (i : Instr) : i.ctorIdx < decodeTable.length := by
  cases i <;> exact of_decide_eq_true rfl

/-- The row of R77's table that an instruction's constructor stands for. -/
def Instr.row (i : Instr) : Row := decodeTable[i.ctorIdx]'i.ctorIdx_lt

theorem Instr.row_mem (i : Instr) : i.row ∈ decodeTable := List.getElem_mem _

theorem Instr.row_priority_le (i : Instr) : i.row.priority ≤ 36 := by cases i <;> exact of_decide_eq_true rfl

theorem Instr.row_shapeClass (i : Instr) : i.row.shapeClass = i.shapeClass := by cases i <;> rfl

open Laws.EncodesInRow in
/-- The laws of `Laws/PerInstr.lean`, one per constructor. -/
theorem encode_and_rowMask (i : Instr) : encode i &&& i.rowMask = i.rowPattern := by
  cases i
  exacts [clearScreen, ret, sysCall _, jump _, call _, skipIfRegValEqual _ _, skipIfRegValNotEqual _ _,
    skipIfRegsEqual _ _, loadValToReg _ _, addValToReg _ _, loadRegToReg _ _, orRegs _ _, andRegs _ _, xorRegs _ _,
    addRegToReg _ _, subRegFromReg _ _, shiftRight _ _, subRegFromRegReversed _ _, shiftLeft _ _,
    skipIfRegsNotEqual _ _, loadValToI _, jumpPlusV0 _, loadRandomAndValToReg _ _, drawSprite _ _ _,
    skipIfKeyPressed _, skipIfKeyNotPressed _, loadDelayTimerToReg _, waitKeyToReg _, loadRegToDelayTimer _,
    loadRegToSoundTimer _, addRegToI _, loadFontAddrToI _, storeBcd _, storeRegsToMem _, loadRegsFromMem _, unknown _]

theorem Instr.row_hits_encode (i : Instr) : i.row.hits (encode i) = true := by
  have hm : i.row.mask = i.rowMask := by cases i <;> rfl
  have hp : i.row.pattern = i.rowPattern := by cases i <;> rfl
  rw [Row.hits, hm, hp, encode_and_rowMask, beq_self_eq_true]

theorem Instr.row_build_encode (i : Instr) : i.row.build (encode i) = i := by
  cases i <;> simp [Instr.row, Instr.ctorIdx, decodeTable, rowsLow, rowsFamily8, rowsHigh, rowsFamilyF, encode]

theorem row_decode_hits (w : Word) : (decode w).row.hits w = true := by
  have h := (decode w).row_hits_encode
  rwa [encode_decode] at h

theorem row_decode_build (w : Word) : (decode w).row.build w = decode w := by
  have h := (decode w).row_build_encode
  rwa [encode_decode] at h

/-! ### Rows that overlap (R74) -/

theorem decodeTable_priorities : decodeTable.map Row.priority = (List.range 36).map (· + 1) := by decide

theorem priority_eq_36_iff : ∀ r ∈ decodeTable, r.priority = 36 ↔ r.shapeClass = .unknown := by decide

theorem patterns_compatible_cases : ∀ r₁ ∈ decodeTable, ∀ r₂ ∈ decodeTable, r₁.priority < r₂.priority →
    r₂.priority ≠ 36 → r₁.pattern &&& r₂.mask = r₂.pattern &&& r₁.mask →
    (r₁.priority = 1 ∨ r₁.priority = 2) ∧ r₂.priority = 3 := by decide

/-- Two rows that match one word agree where both masks look. -/
theorem Row.patterns_compatible {r₁ r₂ : Row} {w : Word} (h1 : r₁.hits w = true) (h2 : r₂.hits w = true) :
    r₁.pattern &&& r₂.mask = r₂.pattern &&& r₁.mask := by
  rw [Row.hits, beq_iff_eq] at h1 h2
  rw [← h1, ← h2, BitVec.and_assoc, BitVec.and_assoc, BitVec.and_comm r₁.mask]

/-- No row before the fallback matches a word of the gaps: by what each row's mask tests. -/
theorem priority_of_hits_unclaimed (w : Word) :
    ∀ r ∈ decodeTable, r.hits w = true → unclaimedWord w = true → r.priority = 36 := by
  simp only [decodeTable, rowsLow, rowsFamily8, rowsHigh, rowsFamilyF, List.cons_append, List.nil_append,
    List.forall_mem_cons, Row.hits, beq_iff_eq, and_FFFF_eq_iff]
  and_intros
  · rintro rfl; decide
  · rintro rfl; decide
  all_goals simp +contextual [and_F000_eq_iff, and_F00F_eq_iff, and_F0FF_eq_iff, unclaimedWord]

/-- Rows 1 and 2 match one word each, and the decoder tests for it before the fallback of family 0. -/
theorem row_decode_priority_of_hits_low {w : Word} : ∀ r ∈ decodeTable, r.priority = 1 ∨ r.priority = 2 →
    r.hits w = true → (decode w).row.priority ≠ 3 := by
  simp only [decodeTable, rowsLow, rowsFamily8, rowsHigh, rowsFamilyF, List.cons_append, List.nil_append,
    List.forall_mem_cons, Row.hits, beq_iff_eq, and_FFFF_eq_iff]
  and_intros
  · rintro - rfl; decide
  · rintro - rfl; decide
  all_goals simp

/-- Two rows overlap only at the fallbacks, which the decoder tries last. -/
theorem not_hits_of_lt_row_decode {w : Word} {r : Row} (hr : r ∈ decodeTable)
    (hlt : r.priority < (decode w).row.priority) : r.hits w = false := by
  have hmem := (decode w).row_mem
  by_contra hn
  rw [Bool.not_eq_false] at hn
  by_cases h36 : (decode w).row.priority = 36
  · rw [priority_eq_36_iff _ hmem, Instr.row_shapeClass, shapeClass_decode_eq_unknown_iff] at h36
    have hr36 := priority_of_hits_unclaimed w r hr hn h36
    have hle := (decode w).row_priority_le
    omega
  · obtain ⟨hlow, h3⟩ := patterns_compatible_cases r hr _ hmem hlt h36 (Row.patterns_compatible hn (row_decode_hits w))
    exact row_decode_priority_of_hits_low r hr hlow hn h3

theorem getElem_decodeTable_priority {j : Nat} (hj : j < decodeTable.length) : decodeTable[j].priority = j + 1 := by
  have h : (decodeTable.map Row.priority)[j]? = some (j + 1) := by
    have h36 : j < 36 := hj
    rw [decodeTable_priorities]
    simp [h36]
  simpa [hj] using h

/-- The row of the decoded instruction matches, and none before it does. -/
theorem firstMatch_eq_decode (w : Word) : firstMatch w = some (decode w) := by
  have hfind : decodeTable.find? (fun r => r.hits w) = some (decode w).row := by
    rw [List.find?_eq_some_iff_getElem]
    refine ⟨row_decode_hits w, (decode w).ctorIdx, (decode w).ctorIdx_lt, rfl, fun j hj => ?_⟩
    have hjl := hj.trans (decode w).ctorIdx_lt
    have hlt : decodeTable[j].priority < (decode w).row.priority := by
      rw [Instr.row, getElem_decodeTable_priority, getElem_decodeTable_priority]; omega
    rw [not_hits_of_lt_row_decode (List.getElem_mem hjl) hlt, Bool.not_false]
  rw [firstMatch, hfind, Option.map_some, row_decode_build]

/-- Settles O4: `firstMatch_eq_decode`, and two rows that match one word have compatible patterns. -/
theorem decoderIsFirstMatchOfTable : Obligations.DecoderIsFirstMatchOfTable :=
  ⟨firstMatch_eq_decode, decodeTable_priorities, fun r₁ h₁ r₂ h₂ _ hlt h36 hit₁ hit₂ =>
    patterns_compatible_cases r₁ h₁ r₂ h₂ hlt h36 (Row.patterns_compatible hit₁ hit₂)⟩

/-- Settles O5: the gaps are the unclaimed words, which only the fallback matches; every other word is matched by the
row of its shape. -/
theorem unknownIsExactlyTheGaps : Obligations.UnknownIsExactlyTheGaps := by
  intro w
  refine ⟨?_, decode_of_shapeClass_unknown, fun h r hr hit => ?_, fun h => ?_⟩
  · rw [shapeClass_decode_eq_unknown_iff, unclaimedWord_iff_gaps]
  · exact priority_of_hits_unclaimed w r hr hit ((shapeClass_decode_eq_unknown_iff w).1 h)
  · have h36 := h _ (decode w).row_mem (row_decode_hits w)
    rwa [priority_eq_36_iff _ (decode w).row_mem, Instr.row_shapeClass] at h36

/-! ### The effective words (R81) -/

/-- The effective shapes are `Return` and those of nine whole families. -/
theorem encode_of_effective {i : Instr} (h : i.effective = true) :
    encode i = 0x00EE#16 ∨ nibble1 (encode i) ∈ [0x1, 0x2, 0x3, 0x6, 0x7, 0xA, 0xB, 0xC, 0xD] := by
  cases i with
  | ret => exact .inl rfl
  | jump | call | jumpPlusV0 | loadValToReg | loadValToI | loadRandomAndValToReg | addValToReg | skipIfRegValEqual
  | drawSprite => right; simp [encode]
  | _ => cases h

/-- Settles O38: a word outside the effective patterns decodes to a shape without an effect. -/
theorem onlyTenPatternsHaveAnEffect : Obligations.OnlyTenPatternsHaveAnEffect := by
  intro s w hf hw hret hfam
  have hd : (decode w).effective = false := by
    by_contra hn
    obtain h | h := encode_of_effective (Bool.not_eq_false _ ▸ hn) <;> rw [encode_decode] at h
    · exact hret h
    · exact hfam h
  rw [Machine.step_of_fetch_ok hf hw, Machine.exec_of_not_effective hd]
  rfl

end Sys2Proof
end

