-- ==== Sys2Proof/Proofs/MemoryAndLoad.lean ====
section
/-! Reading memory, the ROM load and the fetch of what was loaded (R53, R57, R82, R193): the obligations of
`spec/20_memory.md` and of the load in `spec/70_reset_and_hazards.md`. -/

namespace Sys2Proof.Machine

/-! ### The read primitive (R53) -/

theorem beyondMemory_iff (a n : Nat) : beyondMemory a n = true ↔ n ≥ 1 ∧ a + n - 1 > 4095 := decide_eq_true_iff

theorem beyondMemory_eq_false {a n : Nat} (h : n = 0 ∨ a + n - 1 ≤ 4095) : beyondMemory a n = false := by
  rw [Bool.eq_false_iff, ne_eq, beyondMemory_iff]; omega

theorem wordOfBytes_toNat (hi lo : Byte) : (wordOfBytes hi lo).toNat = hi.toNat * 256 + lo.toNat :=
  toNat_append_eq hi lo

theorem State.memRead2_of_beyond (s : State) (kind : AccessKind) {a : Nat} (h : a + 2 - 1 > 4095) :
    s.memRead2 kind a = .error (s.outOfBounds kind) :=
  if_pos ((beyondMemory_iff a 2).2 ⟨by decide, h⟩)

theorem State.memRead2_of_inside (s : State) (kind : AccessKind) {a : Nat} (h : a + 2 - 1 ≤ 4095) :
    s.memRead2 kind a = .ok (wordOfBytes (s.memory.read a) (s.memory.read (a + 1))) := by
  rw [State.memRead2, beyondMemory_eq_false (.inr h)]; rfl

theorem State.memReadBytes_of_beyond (s : State) (kind : AccessKind) {a n : Nat} (hn : n ≥ 1) (h : a + n - 1 > 4095) :
    s.memReadBytes kind a n = .error (s.outOfBounds kind) :=
  if_pos ((beyondMemory_iff a n).2 ⟨hn, h⟩)

theorem State.memReadBytes_of_inside (s : State) (kind : AccessKind) {a n : Nat} (h : n = 0 ∨ a + n - 1 ≤ 4095) :
    s.memReadBytes kind a n = .ok (s.memory.readBytes a n) := by
  rw [State.memReadBytes, beyondMemory_eq_false h]; rfl

/-- Settles O43: the bounds check decides, for two bytes and for a run of them. -/
theorem memReadChecksTheBounds : Obligations.MemReadChecksTheBounds := fun s kind _ =>
  ⟨s.memRead2_of_beyond kind, fun h => ⟨_, s.memRead2_of_inside kind h, wordOfBytes_toNat _ _⟩,
    fun _ => s.memReadBytes_of_beyond kind,
    fun n h => ⟨_, s.memReadBytes_of_inside kind h, Memory.length_readBytes _ _ n, Memory.getElem?_readBytes _ _ n⟩⟩

/-! ### The ROM load (R193) -/

theorem State.loadRom_of_le (s : State) {rom : List Byte} (h : rom.length ≤ 3584) :
    s.loadRom rom = s.setMemory (s.memory.writeBytes 512 rom) := if_pos h

theorem State.loadRom_of_gt (s : State) {rom : List Byte} (h : rom.length > 3584) :
    s.loadRom rom = s.latch (.resourceOverflow rom.length) := if_neg (Nat.not_le.2 h)

/-- A byte of a run written inside a canonical memory is read back. -/
theorem Memory.read_writeBytes_of_getElem? {m : Memory} {a k : Nat} {bs : List Byte} {b : Byte} (hm : m.wf = true)
    (ha : a + bs.length ≤ Config.memSize) (hb : bs[k]? = some b) : (m.writeBytes a bs).read (a + k) = b := by
  rw [Memory.read_writeBytes hm ha, if_pos (Nat.le_add_right a k), Nat.add_sub_cancel_left, hb, Option.getD_some]

/-- A byte outside the run stays. -/
theorem Memory.read_writeBytes_outside {m : Memory} {a y : Nat} {bs : List Byte} (hm : m.wf = true)
    (ha : a + bs.length ≤ Config.memSize) (hy : y < a ∨ a + bs.length ≤ y) : (m.writeBytes a bs).read y = m.read y := by
  rw [Memory.read_writeBytes hm ha]
  obtain h | h := hy
  · rw [if_neg (Nat.not_le.2 h)]
  · rw [List.getElem?_eq_none (by omega), Option.getD_none, ite_self]

/-- A ROM that fits ends inside memory. -/
theorem add_length_le_memSize {rom : List Byte} (h : rom.length ≤ 3584) : 512 + rom.length ≤ Config.memSize := by
  simp only [Config.memSize]; omega

/-- Settles O40: the load is a run of bytes written at 512, or the latch. -/
theorem romLoadCopiesOrIsRejected : Obligations.RomLoadCopiesOrIsRejected := by
  refine fun s rom hm => ⟨fun h => ⟨_, s.loadRom_of_le h, ?_, fun i hi => ?_, fun a => ?_⟩, s.loadRom_of_gt⟩
  · exact Memory.wf_writeBytes hm (add_length_le_memSize h)
  · have hb := List.getElem?_eq_getElem hi
    rw [Memory.read_writeBytes_of_getElem? hm (add_length_le_memSize h) hb, hb]
  · exact Memory.read_writeBytes_outside hm (add_length_le_memSize h)

/-! ### Fetching a word that was written (R57) -/

/-- The bytes of a word, written anywhere inside memory, are the word of a fetch at their address. -/
theorem State.fetch_of_bytes {s : State} {m : Memory} {a k : Nat} {bs : List Byte} {w : Word} (hm : m.wf = true)
    (ha : a + bs.length ≤ Config.memSize) (hs : s.memory = m.writeBytes a bs) (hpc : s.program_counter.toNat = a + k)
    (h0 : bs[k]? = some (w.extractLsb' 8 8)) (h1 : bs[k + 1]? = some (w.extractLsb' 0 8)) : s.fetch = .ok w := by
  have hk := (List.getElem?_eq_some_iff.1 h1).1
  simp only [Config.memSize] at ha
  rw [State.fetch_of_lt (by omega), hs, hpc, Memory.read_writeBytes_of_getElem? hm ha h0, Nat.add_assoc,
    Memory.read_writeBytes_of_getElem? hm ha h1, wordOfBytes_bytesOfWord]

theorem assemble_instructions_length (p : List Instr) : (assemble (p.map .instruction)).length = 2 * p.length := by
  induction p with
  | nil => rfl
  | cons i p ih => simp [assemble, Statement.bytes, bytesOfWord, ih]; omega

/-- The bytes of the `k`-th instruction stand at `2 * k` and `2 * k + 1`. -/
theorem assemble_instructions_getElem? {p : List Instr} {k : Nat} {i : Instr} (h : p[k]? = some i) :
    (assemble (p.map .instruction))[2 * k]? = some ((encode i).extractLsb' 8 8) ∧
    (assemble (p.map .instruction))[2 * k + 1]? = some ((encode i).extractLsb' 0 8) := by
  induction p generalizing k with
  | nil => cases h
  | cons j p ih =>
    cases k with
    | zero => cases h; exact ⟨rfl, rfl⟩
    | succ k => exact ih h

/-- Settles O42: the load puts the `k`-th instruction's bytes at `512 + 2 * k`, a fetch makes its word of them, and
decoding undoes the encoding. -/
theorem assembledProgramIsFetchedBack : Obligations.AssembledProgramIsFetchedBack := by
  intro p hwf hlen k i hk
  have hlength := assemble_instructions_length p
  have hfits : (assemble (p.map .instruction)).length ≤ 3584 := by omega
  have hlt := (List.getElem?_eq_some_iff.1 hk).1
  obtain ⟨h0, h1⟩ := assemble_instructions_getElem? hk
  refine ⟨encode i, ?_, decode_encode (hwf i (List.mem_of_getElem? hk))⟩
  rw [State.loadRom_of_le _ hfits]
  refine State.fetch_of_bytes (m := []) rfl (add_length_le_memSize hfits) rfl ?_ h0 h1
  rw [BitVec.toNat_ofNat, Nat.mod_eq_of_lt (by omega)]

/-! ### The state of the host's table check -/

theorem tableWord_toNat (w : Word) : tableWord 16 w.toNat = w := by
  rw [tableWord, Nat.mod_eq_of_lt w.isLt, BitVec.ofNat_toNat, BitVec.setWidth_eq]

theorem State.placeWord_pc_lt (s : State) (w : Word) : (s.placeWord w).program_counter.toNat < 0x0FFF := by
  simp only [State.placeWord]
  split
  · decide
  · next h =>
    rw [beyondMemory_iff] at h
    omega

theorem State.fetch_placeWord {s : State} (hm : s.memory.wf = true) (w : Word) : (s.placeWord w).fetch = .ok w := by
  have hpc := s.placeWord_pc_lt w
  refine State.fetch_of_bytes (k := 0) (bs := bytesOfWord w) hm ?_ rfl rfl rfl rfl
  show (s.placeWord w).program_counter.toNat + 2 ≤ 4096
  omega

/-- Settles O7: the word stands where the next step fetches, and the latch is clear. -/
theorem placedWordIsTheNextInstruction : Obligations.PlacedWordIsTheNextInstruction := by
  intro s w hm
  rw [State.withFetchWord, tableWord_toNat]
  exact step_of_fetch_ok rfl (State.fetch_placeWord hm w)

end Sys2Proof.Machine
end

