-- ==== Sys2Proof/Proofs/Faults.lean ====
section
/-! When a fatal condition is taken, what it records, and the halted core (R101, R105, R171 to R176, R180): the
obligations of `spec/60_exceptions.md` and of the fault gate in `spec/40_engine_step.md`. -/

namespace Sys2Proof.Machine

/-! ### The step of a running core (R100) -/

/-- Settles O6: the two bytes are the fetched word, and decoding undoes the encoding. -/
theorem stepRunsTheDecodedInstruction : Obligations.StepRunsTheDecodedInstruction := by
  intro s hi lo hf hpc hhi hlo
  have hstep : step s = exec (decode (wordOfBytes hi lo)) s := by
    rw [step_of_fetch_ok hf (State.fetch_of_lt (by omega)), hhi, hlo]
  refine ⟨hstep, fun i hwf hbytes => ?_⟩
  obtain ⟨rfl, rfl⟩ : (encode i).extractLsb' 8 8 = hi ∧ (encode i).extractLsb' 0 8 = lo := by
    simpa only [bytesOfWord, List.cons.injEq, and_true] using hbytes
  rw [hstep, wordOfBytes_bytesOfWord, decode_encode hwf]

/-! ### Where each condition arises (R172 to R174) -/

theorem step_of_stack_underflow {s : State} {w : Word} (hs : s.fault = none) (hw : s.fetch = .ok w)
    (hd : decode w = .ret) (hn : s.stack = []) : step s = .next (s.latch (.stackUnderflow s.program_counter)) := by
  rw [step_of_fetch_ok hs hw, hd, exec_ret_of_nil hn]

theorem step_of_sprite_beyond {s : State} {w : Word} {x y : RegIndex} {n : RowCount} (hs : s.fault = none)
    (hw : s.fetch = .ok w) (hd : decode w = .drawSprite x y n) (h1 : n.val ≥ 1)
    (h2 : s.reg_i.toNat + n.val - 1 > 4095) :
    step s = .next (s.latch (.outOfBoundsSprite s.program_counter s.reg_i)) := by
  rw [step_of_fetch_ok hs hw, hd, exec_drawSprite_beyond h1 h2]

/-- An instruction that faults is a `Return` on an empty stack or a draw beyond memory, and it only latches. -/
theorem exec_fault_cases {i : Instr} {s t : State} {f : Fault} (hs : s.fault = none) (h : exec i s = .next t)
    (ht : t.fault = some f) : t = s.latch f ∧
    ((f = .stackUnderflow s.program_counter ∧ i = .ret ∧ s.stack = []) ∨
     (f = .outOfBoundsSprite s.program_counter s.reg_i ∧
       ∃ x y n, i = .drawSprite x y n ∧ n.val ≥ 1 ∧ s.reg_i.toNat + n.val - 1 > 4095)) := by
  obtain ⟨-, rfl⟩ | ⟨addr, -, rfl⟩ | ⟨addr, -, rfl⟩ | ⟨addr, -, rfl⟩ | ⟨l, top, -, -, rfl⟩ | ⟨hi, hn, rfl⟩ |
    ⟨x, value, -, rfl⟩ | ⟨value, -, rfl⟩ | ⟨x, value, -, rfl⟩ | ⟨x, value, -, rfl⟩ | ⟨x, value, -, -, rfl⟩ |
    ⟨x, value, -, -, rfl⟩ | ⟨x, y, n, -, -, rfl⟩ | ⟨x, y, n, hi, h1, h2, rfl⟩ := exec_cases h
  -- the advance alone, the jumps, `Call` and a `Return` that finds an entry keep the latch
  iterate 5 cases hs.symm.trans ht
  · cases ht; exact ⟨rfl, .inl ⟨rfl, hi, hn⟩⟩
  -- so do the loads, the skip and a completed draw
  iterate 7 cases hs.symm.trans ht
  · cases ht; exact ⟨rfl, .inr ⟨rfl, x, y, n, hi, h1, h2⟩⟩

/-- Everything a faulting step can be: it only latches, and each record has its condition. -/
theorem step_fault_cases {s t : State} {f : Fault} (hs : s.fault = none) (h : step s = .next t)
    (ht : t.fault = some f) : t = s.latch f ∧
    ((f = .outOfBoundsFetch s.program_counter ∧ 0x0FFF ≤ s.program_counter.toNat) ∨
     (f = .stackUnderflow s.program_counter ∧ ∃ w, s.fetch = .ok w ∧ decode w = .ret ∧ s.stack = []) ∨
     (f = .outOfBoundsSprite s.program_counter s.reg_i ∧ ∃ w x y n, s.fetch = .ok w ∧ decode w = .drawSprite x y n ∧
       n.val ≥ 1 ∧ s.reg_i.toNat + n.val - 1 > 4095)) := by
  obtain ⟨g, hg, -⟩ | ⟨-, hpc, rfl⟩ | ⟨w, -, hw, he⟩ := step_cases h
  · cases hs.symm.trans hg
  · cases ht; exact ⟨rfl, .inl ⟨rfl, hpc⟩⟩
  · obtain ⟨rfl, ⟨hf, hi, hn⟩ | ⟨hf, x, y, n, hi, hb⟩⟩ := exec_fault_cases hs he ht
    · exact ⟨rfl, .inr (.inl ⟨hf, w, hw, hi, hn⟩)⟩
    · exact ⟨rfl, .inr (.inr ⟨hf, w, x, y, n, hw, hi, hb⟩)⟩

/-- Settles O11: one way each condition makes the step latch its record, the other way by `step_fault_cases`. -/
theorem fatalConditionsAriseExactlyWhenStated : Obligations.FatalConditionsAriseExactlyWhenStated := by
  intro s hs
  obtain ⟨t, ht⟩ := step_answers_next s
  have latched {f : Fault} (h : step s = .next (s.latch f)) : t.fault = some f := by
    rw [Host.Outcome.next.inj (ht.symm.trans h), State.latch_fault]
  refine ⟨t, ht, ⟨?_, ?_⟩, ⟨?_, ?_⟩, ⟨?_, ?_⟩, ?_⟩
  · rintro ⟨f, hf, hc⟩
    obtain ⟨-, ⟨rfl, -⟩ | ⟨rfl, w, hw, hd, hn⟩ | ⟨rfl, -⟩⟩ := step_fault_cases hs ht hf
    · simp [Fault.code] at hc
    · exact ⟨w, hw, hd, List.length_eq_zero_iff.2 hn⟩
    · simp [Fault.code] at hc
  · rintro ⟨w, hw, hd, hn⟩
    exact ⟨_, latched (step_of_stack_underflow hs hw hd (List.length_eq_zero_iff.1 hn)), rfl⟩
  · rintro ⟨f, hf, hc⟩
    obtain ⟨-, ⟨rfl, hpc⟩ | ⟨rfl, -⟩ | ⟨rfl, -⟩⟩ := step_fault_cases hs ht hf
    · omega
    · simp [Fault.code] at hc
    · simp [Fault.code] at hc
  · intro hpc
    exact ⟨_, latched (step_of_fetch_fault hs (by omega)), rfl⟩
  · rintro ⟨f, hf, hc⟩
    obtain ⟨-, ⟨rfl, -⟩ | ⟨rfl, -⟩ | ⟨rfl, hsprite⟩⟩ := step_fault_cases hs ht hf
    · simp [Fault.code] at hc
    · simp [Fault.code] at hc
    · exact hsprite
  · rintro ⟨w, x, y, n, hw, hd, h1, h2⟩
    exact ⟨_, latched (step_of_sprite_beyond hs hw hd h1 h2), rfl⟩
  · intro f hf
    obtain ⟨rfl, ⟨rfl, -⟩ | ⟨rfl, -⟩ | ⟨rfl, -⟩⟩ := step_fault_cases hs ht hf <;> exact ⟨by simp [Fault.code], rfl⟩

/-- Settles O12: a faulting step only latches, each record holds the program counter, and the latch halts the core. -/
theorem faultingStepChangesOnlyTheLatch : Obligations.FaultingStepChangesOnlyTheLatch := by
  intro s t f hs h ht
  obtain ⟨rfl, hf⟩ := step_fault_cases hs h ht
  refine ⟨rfl, ?_, step_of_halted ht⟩
  obtain ⟨rfl, -⟩ | ⟨rfl, -⟩ | ⟨rfl, -⟩ := hf <;> rfl

/-- Settles O13: the four latching laws, and the parts of each record by definition. -/
theorem faultRecordsHoldTheirFields : Obligations.FaultRecordsHoldTheirFields :=
  ⟨fun _ => exec_ret_of_nil, fun _ => step_of_fetch_fault, fun _ _ _ _ => exec_drawSprite_beyond,
    fun s _ => s.loadRom_of_gt, fun _ _ _ => by and_intros <;> rfl⟩

/-! ### The halted core (R101, R105, R180) -/

theorem stepOutputs_of_halted {s : State} {f : Fault} (h : s.fault = some f) (traced : Bool) :
    stepOutputs traced s = [] := by
  simp only [stepOutputs, h]

/-- Settles O8: the gate of the step, and that of its outputs. -/
theorem haltedCoreTakesNoStep : Obligations.HaltedCoreTakesNoStep := by
  intro s h
  obtain ⟨f, hf⟩ := Option.ne_none_iff_exists'.1 h
  exact ⟨step_of_halted hf, stepOutputs_of_halted hf⟩

theorem State.loadRom_fault_ne_none {s : State} (h : s.fault ≠ none) (rom : List Byte) :
    (s.loadRom rom).fault ≠ none := by
  by_cases hlen : rom.length ≤ 3584
  · rw [State.loadRom_of_le s hlen]; exact h
  · rw [State.loadRom_of_gt s (by omega)]; exact Option.some_ne_none _

/-- Settles O9: a load keeps a set latch or sets it, and a step of a halted core repeats the state. -/
theorem onlyResetLeavesTheHalt : Obligations.OnlyResetLeavesTheHalt := by
  refine ⟨fun op h h' hf hop e => ?_, fun _ => rfl⟩
  obtain ⟨rfl, -⟩ | ⟨rom, rfl, -, rfl⟩ | ⟨rfl, t, ht, rfl⟩ := hostApply_cases e
  · exact absurd rfl hop
  · exact State.loadRom_fault_ne_none hf rom
  · obtain ⟨f, hf'⟩ := Option.ne_none_iff_exists'.1 hf
    rw [step_of_halted hf'] at ht
    cases ht
    exact hf

/-! ### Runs (R105) -/

theorem core_run_answers_next (k : Nat) (s : State) : ∃ t, Sys2Proof.core.run k s = .next t := by
  induction k generalizing s with
  | zero => exact ⟨s, rfl⟩
  | succ k ih =>
    obtain ⟨u, hu⟩ := step_answers_next s
    rw [core_run_succ hu]
    exact ih u

theorem core_run_of_halted {s : State} {f : Fault} (h : s.fault = some f) (k : Nat) :
    Sys2Proof.core.run k s = .next s := by
  induction k with
  | zero => rfl
  | succ k ih => rw [core_run_succ (step_of_halted h), ih]

/-- A run of `m + n` steps goes on from where one of `m` steps ends. -/
theorem core_run_add {m : Nat} {s t : State} (h : Sys2Proof.core.run m s = .next t) (n : Nat) :
    Sys2Proof.core.run (m + n) s = Sys2Proof.core.run n t := by
  induction m generalizing s with
  | zero => cases h; rw [Nat.zero_add]
  | succ m ih =>
    obtain ⟨u, hu, hrun⟩ := step_of_core_run_succ h
    rw [Nat.succ_add, core_run_succ hu, ih hrun]

/-- Settles O47: a run goes on from its end, which repeats itself once the latch is set. -/
theorem runsEndInTheFaultedState : Obligations.RunsEndInTheFaultedState := by
  refine ⟨fun s k => core_run_answers_next k s, fun s t m n f h hf => ?_⟩
  have hrun : Sys2Proof.core.run (m + n) s = .next t := by rw [core_run_add h, core_run_of_halted hf]
  exact ⟨hrun, by simp only [runOutcome, hrun, State.outcome, hf]⟩

end Sys2Proof.Machine
end

