-- ==== Sys2Proof/Proofs/FieldWriters.lean ====
section
/-! Which instruction writes memory, the registers, the stack and the display, and that the timers and keys stand
apart (R22, R29, R31, R34, R36, R56): obligations of `spec/10_state.md` and `spec/20_memory.md`. -/

namespace Sys2Proof.Machine

/-! ### Memory (R56) -/

theorem exec_keeps_memory {i : Instr} {s t : State} (h : exec i s = .next t) : t.memory = s.memory := by
  obtain hu | ⟨value, rfl⟩ | ⟨x, value, rfl⟩ | ⟨x, y, n, rfl⟩ := exec_withRestOf_or h
  · rw [eq_withRestOf_self h hu]; rfl
  · cases h; rfl
  · cases h; rfl
  · obtain ⟨-, rfl⟩ | ⟨-, rfl⟩ := exec_drawSprite_cases h <;> rfl

theorem step_keeps_memory {s t : State} (h : step s = .next t) : t.memory = s.memory := by
  obtain ⟨_, -, rfl⟩ | ⟨-, -, rfl⟩ | ⟨_, -, -, he⟩ := step_cases h
  · rfl
  · rfl
  · exact exec_keeps_memory he

/-- Settles O15: the frame of an instruction, then that of a step. -/
theorem noStepChangesMemory : Obligations.NoStepChangesMemory :=
  ⟨fun _ _ _ h => ⟨exec_keeps_memory h, fun _ => by rw [exec_keeps_memory h]⟩,
    fun _ _ h => ⟨step_keeps_memory h, fun _ => by rw [step_keeps_memory h]⟩⟩

/-! ### The `v` registers (R22) -/

/-- A write to one register changes no other. -/
theorem State.dest_eq_of_getV_setV_ne {s : State} {x k : RegIndex} {b : Byte} (h : (s.setV x b).getV k ≠ s.getV k) :
    x = k := by
  by_contra hn
  exact h (s.getV_setV_of_ne hn b)

/-- A completed draw writes no register but VF. -/
theorem State.eq_vf_of_drawn_getV_ne {s : State} {x y k : RegIndex} {n : RowCount}
    (h : (s.drawn x y n).getV k ≠ s.getV k) : k = 15 := by
  by_contra hn
  exact h (by rw [State.drawn_getV, if_neg (Ne.symm hn)])

/-- Settles O16: by the effects of an instruction, of which four write a register. -/
theorem registersChangeOnlyAsDestinations : Obligations.RegistersChangeOnlyAsDestinations := by
  intro i s t k h hk
  obtain ⟨-, rfl⟩ | ⟨addr, -, rfl⟩ | ⟨addr, -, rfl⟩ | ⟨addr, -, rfl⟩ | ⟨l, top, -, -, rfl⟩ | ⟨-, -, rfl⟩ |
    ⟨x, value, rfl, rfl⟩ | ⟨value, -, rfl⟩ | ⟨x, value, rfl, rfl⟩ | ⟨x, value, rfl, rfl⟩ | ⟨x, value, -, -, rfl⟩ |
    ⟨x, value, -, -, rfl⟩ | ⟨x, y, n, rfl, -, rfl⟩ | ⟨x, y, n, -, -, -, rfl⟩ := exec_cases h
  -- the advance alone and the FlowControl instructions
  iterate 6 exact absurd rfl hk
  -- the loads, of which `LoadValToI` writes no register
  · obtain rfl := State.dest_eq_of_getV_setV_ne hk
    exact .inl ⟨value, rfl⟩
  · exact absurd rfl hk
  · obtain rfl := State.dest_eq_of_getV_setV_ne hk
    exact .inr (.inr (.inl ⟨value, rfl⟩))
  · obtain rfl := State.dest_eq_of_getV_setV_ne hk
    exact .inr (.inl ⟨value, rfl⟩)
  -- the skip, taken and not taken
  iterate 2 exact absurd rfl hk
  -- the draw, completed and faulting
  · exact .inr (.inr (.inr ⟨State.eq_vf_of_drawn_getV_ne hk, x, y, n, rfl⟩))
  · exact absurd rfl hk

/-! ### The stack (R29) -/

/-- Settles O20: by the effects of an instruction, of which two write the stack. -/
theorem stackChangesOnlyByCallAndReturn : Obligations.StackChangesOnlyByCallAndReturn := by
  intro i s t h
  obtain ⟨-, rfl⟩ | ⟨addr, -, rfl⟩ | ⟨addr, -, rfl⟩ | ⟨addr, rfl, rfl⟩ | ⟨l, top, rfl, hs, rfl⟩ | ⟨-, -, rfl⟩ |
    ⟨x, value, -, rfl⟩ | ⟨value, -, rfl⟩ | ⟨x, value, -, rfl⟩ | ⟨x, value, -, rfl⟩ | ⟨x, value, -, -, rfl⟩ |
    ⟨x, value, -, -, rfl⟩ | ⟨x, y, n, -, -, rfl⟩ | ⟨x, y, n, -, -, -, rfl⟩ := exec_cases h
  -- the advance alone and the two jumps
  iterate 3 exact .inl rfl
  -- `Call`, and `Return` with an entry and without
  · exact .inr (.inl ⟨addr, rfl, rfl⟩)
  · exact .inr (.inr ⟨rfl, hs⟩)
  · exact .inl rfl
  -- the loads, the skip and the draw
  iterate 8 exact .inl rfl

/-! ### Timers and keys (R31, R34) -/

/-- `s` with other timers and keys. -/
def State.withInputs (s : State) (d e : Byte) (k : Vector Bool 16) : State :=
  { s with delay_timer := d, sound_timer := e, keyboard := k }

theorem exec_withInputs {i : Instr} {s t : State} (h : exec i s = .next t) (d e : Byte) (k : Vector Bool 16) :
    exec i (s.withInputs d e k) = .next (t.withInputs d e k) := by
  obtain hu | ⟨value, rfl⟩ | ⟨x, value, rfl⟩ | ⟨x, y, n, rfl⟩ := exec_withRestOf_or h
  · rw [eq_withRestOf_self h hu]; exact hu (s.withInputs d e k)
  · cases h; rfl
  · cases h; rfl
  · obtain ⟨hn, rfl⟩ | ⟨hn, rfl⟩ := exec_drawSprite_cases h
    · exact exec_drawSprite_inside (s := s.withInputs d e k) hn
    · exact exec_drawSprite_beyond (s := s.withInputs d e k) hn.1 hn.2

theorem step_withInputs {s t : State} (h : step s = .next t) (d e : Byte) (k : Vector Bool 16) :
    step (s.withInputs d e k) = .next (t.withInputs d e k) := by
  obtain ⟨f, hf, rfl⟩ | ⟨hf, hp, rfl⟩ | ⟨w, hf, hw, he⟩ := step_cases h
  · exact step_of_halted hf
  · exact step_of_fetch_fault (s := s.withInputs d e k) hf hp
  · have hw' : (s.withInputs d e k).fetch = .ok w := State.fetch_congr rfl rfl hw
    rw [step_of_fetch_ok (s := s.withInputs d e k) hf hw']
    exact exec_withInputs he d e k

/-- A step that acts alike whatever the timers and keys hold leaves them as they are. -/
theorem step_eq_withInputs {s t : State} (h : step s = .next t) :
    t = t.withInputs s.delay_timer s.sound_timer s.keyboard :=
  Host.Outcome.next.inj (h.symm.trans (step_withInputs h _ _ _))

/-- Settles O18: a step commutes with setting the timers and keys, so it also keeps them. -/
theorem timersAndKeysAreInert : Obligations.TimersAndKeysAreInert := by
  intro s t h
  have ht := step_eq_withInputs h
  refine ⟨?_, ?_, ?_, step_withInputs h⟩ <;> rw [ht] <;> rfl

/-! ### The display (R36) -/

theorem exec_setDisplay {i : Instr} {s t : State} (h : exec i s = .next t) (hi : ∀ x y n, i ≠ .drawSprite x y n)
    (fb : Framebuffer) : exec i (s.setDisplay fb) = .next (t.setDisplay fb) := by
  obtain hu | ⟨value, rfl⟩ | ⟨x, value, rfl⟩ | ⟨x, y, n, rfl⟩ := exec_withRestOf_or h
  · rw [eq_withRestOf_self h hu]; exact hu (s.setDisplay fb)
  · cases h; rfl
  · cases h; rfl
  · exact absurd rfl (hi x y n)

/-- An instruction that acts alike whatever the display holds leaves it as it is. -/
theorem exec_keeps_display {i : Instr} {s t : State} (h : exec i s = .next t) (hi : ∀ x y n, i ≠ .drawSprite x y n) :
    t.display_memory = s.display_memory := by
  have ht : t = t.setDisplay s.display_memory :=
    Host.Outcome.next.inj (h.symm.trans (exec_setDisplay h hi s.display_memory))
  rw [ht, State.setDisplay_display_memory]

/-- `t'` is `t` but for the display and VF. -/
def State.AgreesButForDisplay (t' t : State) : Prop :=
  t'.memory = t.memory ∧ t'.program_counter = t.program_counter ∧ t'.reg_i = t.reg_i ∧ t'.stack = t.stack ∧
  t'.rng = t.rng ∧ t'.delay_timer = t.delay_timer ∧ t'.sound_timer = t.sound_timer ∧ t'.keyboard = t.keyboard ∧
  t'.fault = t.fault ∧ ∀ k : RegIndex, k ≠ 15 → t'.getV k = t.getV k

theorem State.setDisplay_agrees (t : State) (fb : Framebuffer) : (t.setDisplay fb).AgreesButForDisplay t :=
  ⟨rfl, rfl, rfl, rfl, rfl, rfl, rfl, rfl, rfl, fun _ _ => rfl⟩

/-- What a draw leaves beside the pixels and the flag does not depend on the display. -/
theorem State.drawn_setDisplay_agrees (s : State) (x y : RegIndex) (n : RowCount) (fb : Framebuffer) :
    ((s.setDisplay fb).drawn x y n).AgreesButForDisplay (s.drawn x y n) := by
  refine ⟨rfl, rfl, rfl, rfl, rfl, rfl, rfl, rfl, rfl, fun k hk => ?_⟩
  rw [State.drawn_getV, State.drawn_getV, if_neg hk.symm, if_neg hk.symm]
  rfl

/-- With another display a draw still completes, or still faults. -/
theorem exec_drawSprite_setDisplay {x y : RegIndex} {n : RowCount} {s t : State}
    (h : exec (.drawSprite x y n) s = .next t) (fb : Framebuffer) :
    ∃ t', exec (.drawSprite x y n) (s.setDisplay fb) = .next t' ∧ t'.AgreesButForDisplay t := by
  obtain ⟨hn, rfl⟩ | ⟨hn, rfl⟩ := exec_drawSprite_cases h
  · exact ⟨_, exec_drawSprite_inside (s := s.setDisplay fb) hn, s.drawn_setDisplay_agrees x y n fb⟩
  · exact ⟨_, exec_drawSprite_beyond (s := s.setDisplay fb) hn.1 hn.2, (s.latch _).setDisplay_agrees fb⟩

/-- Settles O21: every other instruction commutes with setting the display, and a draw's other effects ignore it. -/
theorem displayIsReachedOnlyByDrawSprite : Obligations.DisplayIsReachedOnlyByDrawSprite := by
  intro i s t fb h
  refine ⟨fun hi => ⟨exec_keeps_display h hi, exec_setDisplay h hi fb⟩, ?_⟩
  by_cases hi : ∃ x y n, i = .drawSprite x y n
  · obtain ⟨x, y, n, rfl⟩ := hi
    exact exec_drawSprite_setDisplay h fb
  · exact ⟨_, exec_setDisplay h (fun x y n he => hi ⟨x, y, n, he⟩) fb, t.setDisplay_agrees fb⟩

end Sys2Proof.Machine
end

