-- ==== Sys2Proof/Proofs/Invariant.lean ====
section
/-! R33's invariant at reset, over every step, over the ROM load and over whatever the host does (R33, R190 to R197):
the invariants of `spec/10_state.md` and the boot order of `spec/70_reset_and_hazards.md`. -/

namespace Sys2Proof.Machine

/-- Settles O44: reset lists no byte, and every bounded field is zero but for the entry point. -/
theorem resetMeetsTheInvariant : Obligations.ResetMeetsTheInvariant where
  memory_wf := rfl
  reserved := fun _ _ => rfl
  reg_i_le := Nat.zero_le _
  pc_le := by decide
  stack_le := fun _ h => nomatch h
  delay_timer_zero := rfl
  sound_timer_zero := rfl
  keyboard_up := fun k => by simp [State.reset]
  fault_pc := fun _ h => nomatch h

/-! ### The program counter -/

theorem setWidth_address_toNat_le (addr : Address) : (addr.setWidth 16).toNat ≤ 0x0FFF := by
  rw [BitVec.toNat_setWidth_of_le (by decide)]
  have := addr.isLt
  omega

/-- A 12-bit field and a byte add up to at most 0x10FE, so their sum as words does not wrap (R111). -/
theorem indexed_target_toNat (addr : Address) (b : Byte) :
    (addr.setWidth 16 + b.setWidth 16).toNat = addr.toNat + b.toNat := by
  have := addr.isLt
  have := b.isLt
  rw [BitVec.toNat_add, BitVec.toNat_setWidth_of_le (by decide), BitVec.toNat_setWidth_of_le (by decide)]
  omega

theorem indexed_target_toNat_le (addr : Address) (b : Byte) : addr.toNat + b.toNat ≤ 0x10FE := by
  have := addr.isLt
  have := b.isLt
  omega

/-- At a fetchable address, with a bounded stack, no instruction goes beyond 0x10FE. -/
theorem exec_program_counter_le {i : Instr} {s t : State} (h : exec i s = .next t)
    (hpc : s.program_counter.toNat < 0x0FFF) (hstack : ∀ e ∈ s.stack, e.toNat ≤ 0x0FFE) :
    t.program_counter.toNat ≤ 0x10FE := by
  have hadvance : (s.program_counter + 2#16).toNat ≤ 0x10FE := by bv_omega
  have hskip : (s.program_counter + 2#16 + 2#16).toNat ≤ 0x10FE := by bv_omega
  obtain ⟨-, rfl⟩ | ⟨addr, -, rfl⟩ | ⟨addr, -, rfl⟩ | ⟨addr, -, rfl⟩ | ⟨l, top, -, hs, rfl⟩ | ⟨-, -, rfl⟩ |
    ⟨x, value, -, rfl⟩ | ⟨value, -, rfl⟩ | ⟨x, value, -, rfl⟩ | ⟨x, value, -, rfl⟩ | ⟨x, value, -, -, rfl⟩ |
    ⟨x, value, -, -, rfl⟩ | ⟨x, y, n, -, -, rfl⟩ | ⟨x, y, n, -, -, -, rfl⟩ := exec_cases h
  · exact hadvance
  -- `Jump`, `JumpPlusV0`, `Call`, and `Return` with an entry and without
  · exact (setWidth_address_toNat_le addr).trans (by decide)
  · rw [State.setPc_program_counter, indexed_target_toNat]
    exact indexed_target_toNat_le addr _
  · exact (setWidth_address_toNat_le addr).trans (by decide)
  · exact (hstack top (by simp [hs])).trans (by decide)
  · exact hpc.le.trans (by decide)
  -- the four register and index loads
  · exact hadvance
  · exact hadvance
  · exact hadvance
  · exact hadvance
  -- the skip, taken and not taken; the draw, completed and faulting
  · exact hskip
  · exact hadvance
  · exact hadvance
  · exact hpc.le.trans (by decide)

theorem step_program_counter_le {s t : State} (h : step s = .next t) (hpc : s.program_counter.toNat ≤ 0x10FE)
    (hstack : ∀ e ∈ s.stack, e.toNat ≤ 0x0FFE) : t.program_counter.toNat ≤ 0x10FE := by
  obtain ⟨_, -, rfl⟩ | ⟨-, -, rfl⟩ | ⟨_, -, hw, he⟩ := step_cases h
  · exact hpc
  · exact hpc
  · exact exec_program_counter_le he (State.lt_of_fetch_ok hw) hstack

/-! ### The stack -/

/-- At a fetchable address an instruction pushes nothing above 0x0FFE. -/
theorem exec_stack_le {i : Instr} {s t : State} (h : exec i s = .next t) (hpc : s.program_counter.toNat < 0x0FFF)
    (hstack : ∀ e ∈ s.stack, e.toNat ≤ 0x0FFE) : ∀ e ∈ t.stack, e.toNat ≤ 0x0FFE := by
  obtain hsame | ⟨addr, -, hpush⟩ | ⟨-, hpop⟩ := stackChangesOnlyByCallAndReturn i s t h
  · rw [hsame]; exact hstack
  · intro e he
    rw [hpush, List.mem_append, List.mem_singleton] at he
    obtain he | rfl := he
    · exact hstack e he
    · omega
  · exact fun e he => hstack e (by rw [hpop]; exact List.mem_append_left _ he)

theorem step_stack_le {s t : State} (h : step s = .next t) (hstack : ∀ e ∈ s.stack, e.toNat ≤ 0x0FFE) :
    ∀ e ∈ t.stack, e.toNat ≤ 0x0FFE := by
  obtain ⟨_, -, rfl⟩ | ⟨-, -, rfl⟩ | ⟨_, -, hw, he⟩ := step_cases h
  · exact hstack
  · exact hstack
  · exact exec_stack_le he (State.lt_of_fetch_ok hw) hstack

/-! ### The latch -/

/-- A record latched before the step is the halted core's own; one latched by the step names the program counter. -/
theorem step_fault_pc {s t : State} (h : step s = .next t) (hs : ∀ f, s.fault = some f → f.pc = s.program_counter) :
    ∀ f, t.fault = some f → f.pc = t.program_counter := by
  intro f hf
  cases hsf : s.fault with
  | some g =>
    rw [step_of_halted hsf] at h
    cases h
    exact hs f hf
  | none =>
    obtain ⟨rfl, hpc, -⟩ := faultingStepChangesOnlyTheLatch s t f hsf h hf
    exact hpc

/-- Settles O45: field by field, each by its own step lemma. -/
theorem stepKeepsTheInvariant : Obligations.StepKeepsTheInvariant := by
  intro s t hs h
  obtain ⟨hdelay, hsound, hkeys, -⟩ := timersAndKeysAreInert s t h
  exact {
    memory_wf := by rw [step_keeps_memory h]; exact hs.memory_wf
    reserved := by rw [step_keeps_memory h]; exact hs.reserved
    reg_i_le := step_keeps_reg_i_le s t h hs.reg_i_le
    pc_le := step_program_counter_le h hs.pc_le hs.stack_le
    stack_le := step_stack_le h hs.stack_le
    delay_timer_zero := hdelay.trans hs.delay_timer_zero
    sound_timer_zero := hsound.trans hs.sound_timer_zero
    keyboard_up := by rw [hkeys]; exact hs.keyboard_up
    fault_pc := step_fault_pc h hs.fault_pc }

/-! ### The host (R190 to R197) -/

/-- A ROM that fits goes above the reserved region. -/
theorem State.Inv.setMemory_writeBytes {s : State} (hs : s.Inv) {rom : List Byte} (h : rom.length ≤ 3584) :
    (s.setMemory (s.memory.writeBytes 512 rom)).Inv :=
  { hs with
    memory_wf := Memory.wf_writeBytes hs.memory_wf (add_length_le_memSize h)
    reserved := fun a ha =>
      (Memory.read_writeBytes_outside hs.memory_wf (add_length_le_memSize h) (.inl ha)).trans (hs.reserved a ha) }

/-- A record that names the program counter may be latched. -/
theorem State.Inv.latch {s : State} (hs : s.Inv) {f : Fault} (hf : f.pc = s.program_counter) : (s.latch f).Inv :=
  { hs with fault_pc := fun g hg => by cases hg; exact hf }

/-- A load at the entry point, the only one the host may make, keeps the invariant. -/
theorem State.Inv.loadRom {s : State} (hs : s.Inv) (hpc : s.program_counter = 0x0200#16) (rom : List Byte) :
    (s.loadRom rom).Inv := by
  by_cases h : rom.length ≤ 3584
  · rw [State.loadRom_of_le s h]; exact hs.setMemory_writeBytes h
  · rw [State.loadRom_of_gt s (by omega)]; exact hs.latch hpc.symm

theorem Session.start_inv : Session.start.Inv := ⟨resetMeetsTheInvariant, fun _ => rfl⟩

theorem hostApply_inv {op : HostOp} {h h' : Session} (hinv : h.Inv) (e : hostApply op h = .next h') : h'.Inv := by
  obtain ⟨-, rfl⟩ | ⟨rom, -, hfresh, rfl⟩ | ⟨-, t, ht, rfl⟩ := hostApply_cases e
  · exact Session.start_inv
  · exact ⟨hinv.machine.loadRom (hinv.fresh_pc hfresh) rom, fun hp => nomatch hp⟩
  · exact ⟨stepKeepsTheInvariant _ t hinv.machine ht, fun hp => nomatch hp⟩

/-- A sequence of allowed operations is one of them and the rest. -/
theorem hostApply_of_hostRun_cons {op : HostOp} {ops : List HostOp} {h h' : Session}
    (e : hostRun (op :: ops) h = .next h') : ∃ u, hostApply op h = .next u ∧ hostRun ops u = .next h' := by
  cases ha : hostApply op h <;> simp only [hostRun, ha] at e
  · exact ⟨_, rfl, e⟩
  · cases e
  · cases e

theorem hostRun_inv {ops : List HostOp} {h h' : Session} (hinv : h.Inv) (e : hostRun ops h = .next h') : h'.Inv := by
  induction ops generalizing h with
  | nil => cases e; exact hinv
  | cons op ops ih =>
    obtain ⟨u, hu, hrest⟩ := hostApply_of_hostRun_cons e
    exact ih (hostApply_inv hinv hu) hrest

/-- Settles O46: `hostApply_inv`, and by induction over the operations from the start. -/
theorem hostCannotBreakTheInvariant : Obligations.HostCannotBreakTheInvariant :=
  ⟨fun _ _ _ => hostApply_inv, fun _ _ e => (hostRun_inv Session.start_inv e).machine⟩

/-- Settles O41: by the phase the load asks for, and because every step answers a state. -/
theorem hostOperationsFollowTheBootOrder : Obligations.HostOperationsFollowTheBootOrder := by
  intro h rom
  obtain ⟨t, ht⟩ := step_answers_next h.machine
  refine ⟨rfl, fun hp => ?_, fun hp => ?_, t, ht, ?_⟩
  · simp only [hostApply, hp]
  · cases hphase : h.phase with
    | fresh => exact absurd hphase hp
    | loaded => simp only [hostApply, hphase]
    | running => simp only [hostApply, hphase]
  · simp only [hostApply, ht]

end Sys2Proof.Machine
end

