-- ==== Sys2Proof/Proofs/JumpsAndIndexLoad.lean ====
section
/-! The jumps and what a jump beyond memory leads to (R110, R111), and the index load (R121): obligations of
`spec/41_flow_control.md` and `spec/42_regular_effective.md`. -/

namespace Sys2Proof.Machine

/-! ### Jumps -/

/-- The state a `Jump` answers: its arm of the dispatch, the meaning unfolded (R110). -/
theorem exec_jump (addr : Address) (s : State) :
    exec (.jump addr) s = .next (s.setPc (addr.setWidth 16)) := rfl

/-- The state a `JumpPlusV0` answers: its arm of the dispatch, the meaning unfolded (R111). -/
theorem exec_jumpPlusV0 (addr : Address) (s : State) :
    exec (.jumpPlusV0 addr) s = .next (s.setPc (addr.setWidth 16 + (s.getV 0).setWidth 16)) := rfl

/-- A `Jump` to its own address repeats the state. -/
theorem step_of_self_jump {addr : Address} {s : State} (hf : s.fault = none) (hw : s.fetch = .ok (encode (.jump addr)))
    (hpc : s.program_counter = addr.setWidth 16) : step s = .next s := by
  rw [step_of_fetch_ok hf hw, decode_encode rfl, exec_jump, ← hpc]
  rfl

/-- Settles O22: the arm of the dispatch, the self-jump, and a fetch at 0x0FFF, which faults. -/
theorem jumpSetsTheProgramCounter : Obligations.JumpSetsTheProgramCounter := by
  refine fun addr s => ⟨exec_jump addr s, step_of_self_jump, ?_⟩
  rintro hf rfl
  exact step_of_fetch_fault (s := s.setPc 0x0FFF#16) hf (Nat.le_refl 0x0FFF)

theorem indexed_target_eq_ofNat (addr : Address) (b : Byte) :
    addr.setWidth 16 + b.setWidth 16 = BitVec.ofNat 16 ((addr.toNat + b.toNat) % 2 ^ 16) := by
  apply BitVec.eq_of_toNat_eq
  rw [BitVec.toNat_ofNat, Nat.mod_mod, indexed_target_toNat]
  have := indexed_target_toNat_le addr b
  omega

/-- Settles O23: the sum does not wrap, and from 0x0FFF on the fetch at it faults. -/
theorem jumpPlusV0AddsTheRegister : Obligations.JumpPlusV0AddsTheRegister := by
  refine fun addr s => ⟨?_, indexed_target_toNat_le addr _, fun hf hge t h => ?_⟩
  · rw [exec_jumpPlusV0, indexed_target_eq_ofNat]; rfl
  · cases h
    have hpc := indexed_target_toNat addr (s.getV 0)
    exact ⟨hpc, step_of_fetch_fault (s := s.setPc _) hf (hge.trans hpc.ge)⟩

/-! ### The index load -/

/-- The state `LoadValToI` answers: its arm of the dispatch, the meaning unfolded (R121). -/
theorem exec_loadValToI (value : Address) (s : State) :
    exec (.loadValToI value) s = .next (s.setI (value.setWidth 16)).advancePc := rfl

/-- Settles O28: a 12-bit field fits a word unchanged. -/
theorem loadValToIWritesTheIndexRegister : Obligations.LoadValToIWritesTheIndexRegister := by
  intro value s
  have hi : (value.setWidth 16).toNat = value.toNat := BitVec.toNat_setWidth_of_le (by decide)
  exact ⟨_, exec_loadValToI value s, rfl, hi, hi.trans_lt value.isLt⟩

end Sys2Proof.Machine
end

