-- ==== Sys2Proof/Proofs/DrawSprite.lean ====
section
/-! A draw pixel by pixel, twice over, of no rows and beyond memory, and what a step presents (R130 to R137, R185): the
obligations of `spec/43_draw_sprite.md`. -/

namespace Sys2Proof.Machine

/-! ### The rows of a draw (R132, R133) -/

/-- A pixel that no row touches keeps its value. -/
theorem Canvas.drawRows_get_untouched {sx sy : Byte} {yy : Nat} {j : PixelIndex} (rows : List Byte) (c : Canvas)
    (h : ∀ xx < 8, ∀ k < rows.length, pixelIndex sx sy xx (yy + k) ≠ j) :
    (Canvas.drawRows sx sy yy rows c).fb.get j = c.fb.get j := by
  induction rows generalizing yy c with
  | nil => rfl
  | cons row rows ih =>
    have hfirst : ∀ xx < 8, pixelIndex sx sy xx yy ≠ j := fun xx hx => h xx hx 0 (Nat.succ_pos _)
    have hrest : ∀ xx < 8, ∀ k < rows.length, pixelIndex sx sy xx (yy + 1 + k) ≠ j := fun xx hx k hk => by
      rw [Nat.add_right_comm]
      exact h xx hx (k + 1) (Nat.succ_lt_succ hk)
    rw [Canvas.drawRows_cons, ih _ hrest, Canvas.drawRow_get_untouched row c hfirst]

/-- One row leaves the pixels of another row of the same draw alone. -/
theorem Canvas.drawRow_get_other_row {sx sy : Byte} {xx yy yy' : Nat} (hx : xx < 8) (hy : yy < 32) (hy' : yy' < 32)
    (hne : yy ≠ yy') (row : Byte) (c : Canvas) :
    (c.drawRow sx sy yy row).fb.get (pixelIndex sx sy xx yy') = c.fb.get (pixelIndex sx sy xx yy') :=
  Canvas.drawRow_get_untouched row c fun _ hx' hi => hne (pixelIndex_inj hx' hx hy hy' hi).2

/-- A pixel of the `k`-th row is XORed once: no other row of at most 32 touches it. -/
theorem Canvas.drawRows_get_touched {sx sy : Byte} {xx yy k : Nat} {row : Byte} {rows : List Byte} (c : Canvas)
    (hx : xx < 8) (hlen : yy + rows.length ≤ 32) (hk : rows[k]? = some row) :
    (Canvas.drawRows sx sy yy rows c).fb.get (pixelIndex sx sy xx (yy + k)) =
      (c.fb.get (pixelIndex sx sy xx (yy + k)) ^^ spritePixel row xx) := by
  induction rows generalizing yy k c with
  | nil => cases hk
  | cons row0 rows ih =>
    rw [List.length_cons] at hlen
    rw [Canvas.drawRows_cons]
    cases k with
    | zero =>
      cases hk
      have hrest : ∀ xx' < 8, ∀ k < rows.length, pixelIndex sx sy xx' (yy + 1 + k) ≠ pixelIndex sx sy xx (yy + 0) := by
        intro xx' hx' k hk hi
        have := (pixelIndex_inj hx' hx (by omega) (by omega) hi).2
        omega
      rw [Canvas.drawRows_get_untouched rows _ hrest]
      exact Canvas.drawRow_get_touched hx (by omega) _ c
    | succ k =>
      have hklen := (List.getElem?_eq_some_iff.1 hk).1
      rw [List.length_cons] at hklen
      rw [show yy + (k + 1) = yy + 1 + k by omega, ih _ (by omega) hk,
        Canvas.drawRow_get_other_row hx (by omega) (by omega) (by omega)]

/-- The flag after the rows: it was set before, or a set sprite pixel met a pixel lit before the draw. -/
theorem Canvas.drawRows_collision {sx sy : Byte} {yy : Nat} (rows : List Byte) (c : Canvas)
    (hlen : yy + rows.length ≤ 32) :
    (Canvas.drawRows sx sy yy rows c).collision = true ↔ c.collision = true ∨
      ∃ xx < 8, ∃ k row, rows[k]? = some row ∧ c.fb.get (pixelIndex sx sy xx (yy + k)) = true ∧
        spritePixel row xx = true := by
  induction rows generalizing yy c with
  | nil => simp [Canvas.drawRows]
  | cons row0 rows ih =>
    rw [List.length_cons] at hlen
    rw [Canvas.drawRows_cons, ih _ (by omega), Canvas.drawRow_collision (by omega), or_assoc]
    have hkeep {xx k : Nat} {row : Byte} (hx : xx < 8) (hk : rows[k]? = some row) :
        (c.drawRow sx sy yy row0).fb.get (pixelIndex sx sy xx (yy + 1 + k)) =
          c.fb.get (pixelIndex sx sy xx (yy + (k + 1))) := by
      have hklt := (List.getElem?_eq_some_iff.1 hk).1
      rw [Canvas.drawRow_get_other_row hx (by omega) (by omega) (by omega), Nat.add_right_comm, Nat.add_assoc]
    refine or_congr_right ⟨?_, ?_⟩
    · rintro (⟨xx, hx, hl, hp⟩ | ⟨xx, hx, k, row, hk, hl, hp⟩)
      · exact ⟨xx, hx, 0, row0, rfl, hl, hp⟩
      · exact ⟨xx, hx, k + 1, row, hk, hkeep hx hk ▸ hl, hp⟩
    · rintro ⟨xx, hx, k, row, hk, hl, hp⟩
      cases k with
      | zero => cases hk; exact .inl ⟨xx, hx, hl, hp⟩
      | succ k => exact .inr ⟨xx, hx, k, row, hk, (hkeep hx hk).trans hl, hp⟩

/-! ### A completed draw, pixel by pixel -/

section
variable {s : State} {x y : RegIndex} {n : RowCount}

/-- The index of the pixel that column `xx` and row `yy` of a sprite touch. -/
def State.spriteIndex (s : State) (x y : RegIndex) (xx yy : Nat) : PixelIndex :=
  pixelIndex (s.getV x) (s.getV y) xx yy

/-- Column `xx` and row `yy` of the sprite that `reg_i` points at. -/
def State.spriteBit (s : State) (xx yy : Nat) : Bool := spritePixel (s.memory.read (s.reg_i.toNat + yy)) xx

theorem State.drawn_get_touched {xx yy : Nat} (hx : xx < 8) (hy : yy < n.val) :
    (s.drawn x y n).display_memory.get (s.spriteIndex x y xx yy) =
      (s.display_memory.get (s.spriteIndex x y xx yy) ^^ s.spriteBit xx yy) := by
  have hlen : 0 + (s.memory.readBytes s.reg_i.toNat n.val).length ≤ 32 := by
    rw [Memory.length_readBytes]; omega
  have hk := Memory.getElem?_readBytes s.memory s.reg_i.toNat n.val yy hy
  have h := Canvas.drawRows_get_touched (sx := s.getV x) (sy := s.getV y) ⟨s.display_memory, false⟩ hx hlen hk
  rwa [Nat.zero_add] at h

theorem State.drawn_get_untouched {p : PixelIndex} (h : ∀ xx < 8, ∀ yy < n.val, s.spriteIndex x y xx yy ≠ p) :
    (s.drawn x y n).display_memory.get p = s.display_memory.get p := by
  refine Canvas.drawRows_get_untouched (sx := s.getV x) (sy := s.getV y) _ ⟨s.display_memory, false⟩ ?_
  intro xx hx k hk
  rw [Memory.length_readBytes] at hk
  rw [Nat.zero_add]
  exact h xx hx k hk

theorem State.drawn_vf_cases : (s.drawn x y n).getV 15 = 0x01#8 ∨ (s.drawn x y n).getV 15 = 0x00#8 := by
  rw [State.drawn_getV, if_pos rfl]
  exact ite_eq_or_eq _ _ _

theorem b2n_eq_one_iff (c : Bool) : b2n c = 0x01#8 ↔ c = true := by
  cases c <;> decide

/-- VF tells whether a set sprite pixel met a lit one. -/
theorem State.drawn_vf_eq_one_iff : (s.drawn x y n).getV 15 = 0x01#8 ↔ ∃ xx < 8, ∃ yy < n.val,
    s.display_memory.get (s.spriteIndex x y xx yy) = true ∧ s.spriteBit xx yy = true := by
  have hlen : 0 + (s.memory.readBytes s.reg_i.toNat n.val).length ≤ 32 := by
    rw [Memory.length_readBytes]; omega
  rw [State.drawn_getV, if_pos rfl, b2n_eq_one_iff, composite, Canvas.drawRows_collision _ _ hlen]
  simp only [Bool.false_eq_true, false_or, Nat.zero_add]
  refine exists_congr fun xx => and_congr_right fun hx => exists_congr fun yy => ⟨?_, ?_⟩
  · rintro ⟨row, hrow, hl, hp⟩
    have hy := (List.getElem?_eq_some_iff.1 hrow).1
    rw [Memory.length_readBytes] at hy
    rw [Memory.getElem?_readBytes _ _ _ _ hy] at hrow
    cases hrow
    exact ⟨hy, hl, hp⟩
  · rintro ⟨hy, hl, hp⟩
    exact ⟨_, Memory.getElem?_readBytes _ _ _ _ hy, hl, hp⟩

end

/-- Settles O33: the closed form of a completed draw, at the index each column and row name. -/
theorem drawSpriteXorsEveryPixelOnce : Obligations.DrawSpriteXorsEveryPixelOnce := by
  intro x y n s hn
  refine ⟨s.drawn x y n, exec_drawSprite_inside hn, fun p xx yy hx hy hp => ?_, fun p hp => ?_, ?_,
    State.drawn_vf_cases⟩
  · obtain rfl : p = s.spriteIndex x y xx yy := Fin.ext hp
    exact State.drawn_get_touched hx hy
  · exact State.drawn_get_untouched fun xx hx yy hy hi => hp xx yy hx hy (congrArg Fin.val hi).symm
  · rw [State.drawn_vf_eq_one_iff]
    constructor
    · rintro ⟨xx, hx, yy, hy, hl, hb⟩
      exact ⟨_, xx, yy, hx, hy, rfl, hl, hb⟩
    · rintro ⟨p, xx, yy, hx, hy, hp, hl, hb⟩
      obtain rfl : p = s.spriteIndex x y xx yy := Fin.ext hp
      exact ⟨xx, hx, yy, hy, hl, hb⟩

/-! ### Two draws (R135) -/

/-- A draw keeps its place where neither coordinate register is VF. -/
theorem State.drawn_spriteIndex (s : State) {x y : RegIndex} (n : RowCount) (hx : x ≠ 15) (hy : y ≠ 15) (xx yy : Nat) :
    (s.drawn x y n).spriteIndex x y xx yy = s.spriteIndex x y xx yy := by
  rw [State.spriteIndex, State.drawn_getV, State.drawn_getV, if_neg hx.symm, if_neg hy.symm]
  rfl

/-- A draw keeps its sprite. -/
theorem State.drawn_spriteBit (s : State) (x y : RegIndex) (n : RowCount) (xx yy : Nat) :
    (s.drawn x y n).spriteBit xx yy = s.spriteBit xx yy := rfl

/-- Each touched pixel is XORed twice with the same sprite pixel. -/
theorem State.drawn_drawn_display (s : State) {x y : RegIndex} (n : RowCount) (hx : x ≠ 15) (hy : y ≠ 15) :
    ((s.drawn x y n).drawn x y n).display_memory = s.display_memory := by
  have hidx := s.drawn_spriteIndex n hx hy
  refine Framebuffer.ext_get fun p => ?_
  by_cases hp : ∃ xx < 8, ∃ yy < n.val, s.spriteIndex x y xx yy = p
  · obtain ⟨xx, hxx, yy, hyy, rfl⟩ := hp
    have h := State.drawn_get_touched (s := s.drawn x y n) (x := x) (y := y) hxx hyy
    rw [hidx, State.drawn_spriteBit, State.drawn_get_touched hxx hyy] at h
    rw [h, Bool.xor_assoc, Bool.xor_self, Bool.xor_false]
  · simp only [not_exists, not_and] at hp
    have hp' : ∀ xx < 8, ∀ yy < n.val, (s.drawn x y n).spriteIndex x y xx yy ≠ p := by
      intro xx hxx yy hyy
      rw [hidx]
      exact hp xx hxx yy hyy
    rw [State.drawn_get_untouched hp', State.drawn_get_untouched hp]

/-- A set sprite pixel is lit before the first draw or before the second. -/
theorem State.drawn_vf_or_drawn_drawn_vf (s : State) {x y : RegIndex} {n : RowCount} (hx : x ≠ 15) (hy : y ≠ 15)
    {xx yy : Nat} (hxx : xx < 8) (hyy : yy < n.val) (hb : s.spriteBit xx yy = true) :
    (s.drawn x y n).getV 15 = 0x01#8 ∨ ((s.drawn x y n).drawn x y n).getV 15 = 0x01#8 := by
  cases hl : s.display_memory.get (s.spriteIndex x y xx yy) with
  | true => exact .inl (State.drawn_vf_eq_one_iff.2 ⟨xx, hxx, yy, hyy, hl, hb⟩)
  | false =>
    refine .inr (State.drawn_vf_eq_one_iff.2 ⟨xx, hxx, yy, hyy, ?_, hb⟩)
    rw [s.drawn_spriteIndex n hx hy, State.drawn_get_touched hxx hyy, hl, hb, Bool.false_xor]

/-- Settles O34: a draw keeps its place and its sprite, so a second one undoes it. -/
theorem drawingTwiceRestoresTheDisplay : Obligations.DrawingTwiceRestoresTheDisplay := by
  intro x y n s t u hx hy hn ht hu
  rw [exec_drawSprite_inside hn] at ht
  cases ht
  rw [exec_drawSprite_inside (s := s.drawn x y n) hn] at hu
  cases hu
  refine ⟨s.drawn_drawn_display n hx hy, ?_⟩
  rintro ⟨xx, yy, hxx, hyy, hb⟩
  exact s.drawn_vf_or_drawn_drawn_vf hx hy hxx hyy hb

/-! ### Completing, faulting, and drawing no rows (R130, R135, R137) -/

/-- Settles O32: the rows lie inside memory or reach beyond it. -/
theorem drawSpriteCompletesInsideMemory : Obligations.DrawSpriteCompletesInsideMemory := by
  refine fun x y n s => ⟨fun hn => exec_drawSprite_inside hn, fun hn => ?_⟩
  exact exec_drawSprite_beyond (by omega) (by omega)

/-- No rows, no pixels and no collision. -/
theorem State.drawn_no_rows (s : State) (x y : RegIndex) : s.drawn x y 0 = (s.setV 15 0x00#8).advancePc := rfl

/-! ### What a step presents and traces (R136, R185) -/

theorem execOutputs_of_fault {t : State} {f : Fault} (h : t.fault = some f) (traced : Bool) (d : Instr) :
    execOutputs traced d t = [] := by
  unfold execOutputs
  exact if_pos (h ▸ rfl)

theorem execOutputs_drawSprite {t : State} (h : t.fault = none) (x y : RegIndex) (n : RowCount) :
    execOutputs false (.drawSprite x y n) t = [.present t.display_memory] := by
  rw [execOutputs, h]; rfl

theorem execOutputs_traced {t : State} (h : t.fault = none) (d : Instr) :
    execOutputs true d t = execOutputs false d t ++ [.trace d t.reg_i t.v] := by
  simp [execOutputs, h]

/-- Settles O35: a draw of no rows is inside memory wherever `reg_i` points. -/
theorem drawOfNoRowsClearsVF : Obligations.DrawOfNoRowsClearsVF := by
  intro x y s
  have hexec : exec (.drawSprite x y 0) s = .next (s.setV 15 0x00#8).advancePc :=
    (exec_drawSprite_inside (.inl rfl)).trans (congrArg _ (s.drawn_no_rows x y))
  refine ⟨hexec, fun t h hf => ?_⟩
  rw [execOutputs_drawSprite hf, Host.Outcome.next.inj (h.symm.trans hexec)]
  rfl

theorem stepOutputs_of_fetch_fault {s : State} (hf : s.fault = none) (hp : 0x0FFF ≤ s.program_counter.toNat)
    (traced : Bool) : stepOutputs traced s = [] := by
  simp only [stepOutputs, hf, State.fetch_of_ge hp]

theorem stepOutputs_of_fetch_ok {s t : State} {w : Word} (hf : s.fault = none) (hw : s.fetch = .ok w)
    (he : exec (decode w) s = .next t) (traced : Bool) : stepOutputs traced s = execOutputs traced (decode w) t := by
  simp only [stepOutputs, hf, hw, he]

/-- Settles O36: the outputs of a step are those of the executed instruction, or none after a failed fetch. -/
theorem outputsOfAStep : Obligations.OutputsOfAStep := by
  intro s t hf h
  obtain ⟨f, hs, -⟩ | ⟨-, hp, rfl⟩ | ⟨w, -, hw, he⟩ := step_cases h
  · cases hf.symm.trans hs
  · exact ⟨fun _ => stepOutputs_of_fetch_fault hf hp, fun ht => nomatch ht⟩
  · have hout := stepOutputs_of_fetch_ok hf hw he
    refine ⟨fun ht traced => ?_, fun ht => ⟨w, hw, ?_, fun hd => ?_, ?_⟩⟩
    · obtain ⟨f, hf'⟩ := Option.ne_none_iff_exists'.1 ht
      rw [hout, execOutputs_of_fault hf']
    · rintro ⟨x, y, n, hd⟩
      rw [hout, hd, execOutputs_drawSprite ht]
    · rw [hout, execOutputs_of_ne_drawSprite hd]
    · rw [hout, hout, execOutputs_traced ht]

end Sys2Proof.Machine
end
